-- ==== Sys2Proof/Word.lean ====
section
/-! DEFINITION. The widths the spec uses (00_scope.md R8, R10; 10_state.md R20, R22; 30_encoding.md R72). -/

namespace Sys2Proof

/-- One byte of BUF, and one byte of a packet (R8: "a byte is 8 bits, value 0 to 255"). -/
abbrev Byte := BitVec 8

/-- A field register, an immediate and result data: VALW = 32 bits (R7, R22). -/
abbrev Word := BitVec 32

/-- A command word of exactly 64 bits (R72). -/
abbrev CommandWord := BitVec 64

/-- A UTF-16 code unit of an image name, 16 bits (R151; width from general knowledge, G2). -/
abbrev CodeUnit := BitVec 16

end Sys2Proof
end

