-- ==== Sys2Proof/Config.lean ====
section
/-! DEFINITION. The implementation parameters of 00_scope.md R7 and the one value the packet layer leaves open. -/

namespace Sys2Proof

/-- NBYTES: the size of BUF in bytes, 12 in this hardware (R7). -/
def Config.nbytes : Nat := 12

/-- BUFBITS = 8 * NBYTES: the size of BUF in bits (R7). -/
def Config.bufBits : Nat := 8 * Config.nbytes

/-- MAXLEN: the largest field length a command accepts (R7, R46). -/
def Config.maxLen : Nat := 32

/-- NFLD: the number of field registers (R7, R22). -/
def Config.nfld : Nat := 5

/-- HDRBYTES: the length of an ITP header in bytes (R7). -/
def Config.hdrBytes : Nat := 12

/-- The sizes the codec rules are written for: 1 <= NBYTES <= 8191 (R7). -/
def Config.sizeOk (nbytes : Nat) : Bool := decide (1 ≤ nbytes ∧ nbytes ≤ 8191)

/-- Free value of the packet layer [log 11]: whether `extensionOf(code)` writes the letter at a position in upper
case. R152: "which letter case it returns is not stated" (93 U19). No rule of the block reads it. -/
opaque Config.extensionUpper : BitVec 4 → Nat → Bool

end Sys2Proof
end

