-- ==== Sys2Proof/Syntax.lean ====
section
/-! DEFINITION. The commands of the block, one constructor per row of spec/opcode_table.json (30_encoding.md R76),
and the names of the header layouts and their fields (30_encoding.md R61, R62). -/

namespace Sys2Proof

/-- A command. Operands have the widths of format C's fields (R74): `a` 16 bits, `b` 8 bits, `imm` 32 bits, and are
unsigned and unscaled (R75). A must-be-zero field is no operand. -/
inductive Instr where
  /-- `WRFIELD off, len, val` (R90). -/
  | wrfield (off : BitVec 16) (len : BitVec 8) (val : Word)
  /-- `RDFIELD off, len` (R91). -/
  | rdfield (off : BitVec 16) (len : BitVec 8)
  /-- `CLRBUF` (R130). -/
  | clrbuf
  /-- `PUTBYTE idx, byte` (R131). -/
  | putbyte (idx : BitVec 16) (byte : Word)
  /-- `GETBYTE idx` (R132). -/
  | getbyte (idx : BitVec 16)
  /-- `SETFLD idx, val` (R133). -/
  | setfld (idx : BitVec 16) (val : Word)
  /-- `GETFLD idx` (R134). -/
  | getfld (idx : BitVec 16)
  /-- `CLRFLD` (R135). -/
  | clrfld
  /-- `GETSTAT` (R136). -/
  | getstat
  /-- `ENCHDR.REQ` (R111). -/
  | enchdrReq
  /-- `ENCHDR.RSP` (R112). -/
  | enchdrRsp
  /-- `DECHDR.REQ` (R113). -/
  | dechdrReq
  /-- `DECHDR.RSP` (R114). -/
  | dechdrRsp
deriving DecidableEq, Repr

/-- The two header layouts, "two distinct layouts, not one shared layout with a directional type flag" (R63). -/
inductive Layout where
  | req
  | rsp
deriving DecidableEq, Repr

/-- The named fields of the two layouts (R61, R62). -/
inductive FieldName where
  | version
  | requestType
  | responseType
  | timestamp
  | sequenceNumber
  | imageTypeCode
  | imageNameLength
  | payloadLength
deriving DecidableEq, Repr

/-- A bit field of a layout, `name(off, len)`: absolute index of its first (most significant) bit and its length in
bits (R11). -/
structure FieldDesc where
  name : FieldName
  off : Nat
  len : Nat
deriving DecidableEq, Repr

end Sys2Proof
end

