-- ==== Sys2Proof/WellFormed.lean ====
section
/-! DEFINITION. Which commands an instance has. Every operand value is encodable and decodes (30_encoding.md R75:
the fields are wider than what is legal "on purpose"), so the only checks are on the instance: its size is one the
codec rules are written for (00_scope.md R7), and the header commands exist only when NBYTES = 12 (41_header.md
R110). -/

namespace Sys2Proof

/-- The four header commands, opcodes 0x10 to 0x13. -/
def Instr.isHeader : Instr → Bool
  | .wrfield _ _ _ => false
  | .rdfield _ _ => false
  | .clrbuf => false
  | .putbyte _ _ => false
  | .getbyte _ => false
  | .setfld _ _ => false
  | .getfld _ => false
  | .clrfld => false
  | .getstat => false
  | .enchdrReq => true
  | .enchdrRsp => true
  | .dechdrReq => true
  | .dechdrRsp => true

/-- Check of R110: a header command only in an instance whose buffer is one header long. -/
def Instr.headerOk (nbytes : Nat) (i : Instr) : Bool := !i.isHeader || nbytes == Config.hdrBytes

/-- A command of an instance of `nbytes` bytes. -/
def Instr.wellFormedFor (nbytes : Nat) (i : Instr) : Bool := Config.sizeOk nbytes && i.headerOk nbytes

/-- A command of this hardware (NBYTES = 12). -/
def Instr.wellFormed (i : Instr) : Bool := i.wellFormedFor Config.nbytes

end Sys2Proof
end

