-- ==== Sys2Proof/Decode.lean ====
section
/-! DEFINITION. The command word (30_encoding.md Part B): field extraction, the total decoder, the encoder, and the
rows of the opcode table with their match and mask (R76). -/

namespace Sys2Proof

/-- `op`, bits 63:56 (R74). -/
def wordOp (w : CommandWord) : BitVec 8 := w.extractLsb' 56 8

/-- `a`, bits 55:40 (R74). -/
def wordA (w : CommandWord) : BitVec 16 := w.extractLsb' 40 16

/-- `b`, bits 39:32 (R74). -/
def wordB (w : CommandWord) : BitVec 8 := w.extractLsb' 32 8

/-- `imm`, bits 31:0 (R74). -/
def wordImm (w : CommandWord) : Word := w.extractLsb' 0 32

/-- Why a word selects no command. Both are IllegalCommand (R184). -/
inductive DecodeError where
  /-- `op` is not in the opcode map (R78), or is a header opcode in an instance with NBYTES other than 12 (R110). -/
  | illegalOpcode (op : BitVec 8)
  /-- `op` is in the opcode map and a must-be-zero field is not zero (R77). -/
  | mustBeZero (op : BitVec 8)
deriving DecidableEq, Repr

/-- `i` when the must-be-zero fields are zero, else `mustBeZero` (R77). -/
def requireZero (ok : Bool) (op : BitVec 8) (i : Instr) : Except DecodeError Instr :=
  if ok then .ok i else .error (.mustBeZero op)

/-- The opcode map of R76 on the four fields of a word, in an instance with or without the header commands. -/
def decodeFields (hasHeader : Bool) (op : BitVec 8) (a : BitVec 16) (b : BitVec 8) (imm : Word) :
    Except DecodeError Instr :=
  if op = 0x01#8 then .ok (.wrfield a b imm)
  else if op = 0x02#8 then requireZero (imm == 0) op (.rdfield a b)
  else if op = 0x03#8 then requireZero (a == 0 && b == 0 && imm == 0) op .clrbuf
  else if op = 0x04#8 then requireZero (b == 0) op (.putbyte a imm)
  else if op = 0x05#8 then requireZero (b == 0 && imm == 0) op (.getbyte a)
  else if op = 0x08#8 then requireZero (b == 0) op (.setfld a imm)
  else if op = 0x09#8 then requireZero (b == 0 && imm == 0) op (.getfld a)
  else if op = 0x0A#8 then requireZero (a == 0 && b == 0 && imm == 0) op .clrfld
  else if op = 0x0F#8 then requireZero (a == 0 && b == 0 && imm == 0) op .getstat
  else if hasHeader = false then .error (.illegalOpcode op)
  else if op = 0x10#8 then requireZero (a == 0 && b == 0 && imm == 0) op .enchdrReq
  else if op = 0x11#8 then requireZero (a == 0 && b == 0 && imm == 0) op .enchdrRsp
  else if op = 0x12#8 then requireZero (a == 0 && b == 0 && imm == 0) op .dechdrReq
  else if op = 0x13#8 then requireZero (a == 0 && b == 0 && imm == 0) op .dechdrRsp
  else .error (.illegalOpcode op)

/-- The decoder of an instance of `nbytes` bytes: total (R79). The header opcodes are illegal unless NBYTES = 12
(R78, R110). -/
def decodeFor (nbytes : Nat) (w : CommandWord) : Except DecodeError Instr :=
  decodeFields (nbytes == Config.hdrBytes) (wordOp w) (wordA w) (wordB w) (wordImm w)

/-- The decoder of this hardware. -/
def decode (w : CommandWord) : Except DecodeError Instr := decodeFor Config.nbytes w

/-- The opcode of a command (R76). -/
def Instr.op : Instr → BitVec 8
  | .wrfield _ _ _ => 0x01
  | .rdfield _ _ => 0x02
  | .clrbuf => 0x03
  | .putbyte _ _ => 0x04
  | .getbyte _ => 0x05
  | .setfld _ _ => 0x08
  | .getfld _ => 0x09
  | .clrfld => 0x0A
  | .getstat => 0x0F
  | .enchdrReq => 0x10
  | .enchdrRsp => 0x11
  | .dechdrReq => 0x12
  | .dechdrRsp => 0x13

/-- The `a` field of a command's word (R74, R76). -/
def Instr.fieldA : Instr → BitVec 16
  | .wrfield off _ _ => off
  | .rdfield off _ => off
  | .clrbuf => 0
  | .putbyte idx _ => idx
  | .getbyte idx => idx
  | .setfld idx _ => idx
  | .getfld idx => idx
  | .clrfld => 0
  | .getstat => 0
  | .enchdrReq => 0
  | .enchdrRsp => 0
  | .dechdrReq => 0
  | .dechdrRsp => 0

/-- The `b` field of a command's word (R74, R76). -/
def Instr.fieldB : Instr → BitVec 8
  | .wrfield _ len _ => len
  | .rdfield _ len => len
  | .clrbuf => 0
  | .putbyte _ _ => 0
  | .getbyte _ => 0
  | .setfld _ _ => 0
  | .getfld _ => 0
  | .clrfld => 0
  | .getstat => 0
  | .enchdrReq => 0
  | .enchdrRsp => 0
  | .dechdrReq => 0
  | .dechdrRsp => 0

/-- The `imm` field of a command's word (R74, R76). -/
def Instr.fieldImm : Instr → Word
  | .wrfield _ _ val => val
  | .rdfield _ _ => 0
  | .clrbuf => 0
  | .putbyte _ byte => byte
  | .getbyte _ => 0
  | .setfld _ val => val
  | .getfld _ => 0
  | .clrfld => 0
  | .getstat => 0
  | .enchdrReq => 0
  | .enchdrRsp => 0
  | .dechdrReq => 0
  | .dechdrRsp => 0

/-- Format C: `op` 63:56, `a` 55:40, `b` 39:32, `imm` 31:0 (R74). -/
def formatC (op : BitVec 8) (a : BitVec 16) (b : BitVec 8) (imm : Word) : CommandWord := op ++ a ++ b ++ imm

/-- The word of a command (R74, R76); an operand not written is zero (R81). -/
def encode (i : Instr) : CommandWord := formatC i.op i.fieldA i.fieldB i.fieldImm

/-- One row of the opcode table: its mnemonic, match and mask. -/
structure OpcodeRow where
  mnemonic : String
  matchBits : CommandWord
  maskBits : CommandWord
deriving DecidableEq, Repr

/-- A word selects a row exactly when `w AND mask = match` (R76). -/
def OpcodeRow.selects (r : OpcodeRow) (w : CommandWord) : Bool := w &&& r.maskBits == r.matchBits

/-- The row of a command in spec/opcode_table.json (R76). -/
def Instr.row : Instr → OpcodeRow
  | .wrfield _ _ _ => ⟨"WRFIELD", 0x0100000000000000, 0xFF00000000000000⟩
  | .rdfield _ _ => ⟨"RDFIELD", 0x0200000000000000, 0xFF000000FFFFFFFF⟩
  | .clrbuf => ⟨"CLRBUF", 0x0300000000000000, 0xFFFFFFFFFFFFFFFF⟩
  | .putbyte _ _ => ⟨"PUTBYTE", 0x0400000000000000, 0xFF0000FF00000000⟩
  | .getbyte _ => ⟨"GETBYTE", 0x0500000000000000, 0xFF0000FFFFFFFFFF⟩
  | .setfld _ _ => ⟨"SETFLD", 0x0800000000000000, 0xFF0000FF00000000⟩
  | .getfld _ => ⟨"GETFLD", 0x0900000000000000, 0xFF0000FFFFFFFFFF⟩
  | .clrfld => ⟨"CLRFLD", 0x0A00000000000000, 0xFFFFFFFFFFFFFFFF⟩
  | .getstat => ⟨"GETSTAT", 0x0F00000000000000, 0xFFFFFFFFFFFFFFFF⟩
  | .enchdrReq => ⟨"ENCHDR.REQ", 0x1000000000000000, 0xFFFFFFFFFFFFFFFF⟩
  | .enchdrRsp => ⟨"ENCHDR.RSP", 0x1100000000000000, 0xFFFFFFFFFFFFFFFF⟩
  | .dechdrReq => ⟨"DECHDR.REQ", 0x1200000000000000, 0xFFFFFFFFFFFFFFFF⟩
  | .dechdrRsp => ⟨"DECHDR.RSP", 0x1300000000000000, 0xFFFFFFFFFFFFFFFF⟩

/-- The thirteen rows of the opcode map, in the table's order (R76). -/
def opcodeTable : List OpcodeRow :=
  [Instr.row (.wrfield 0 0 0), Instr.row (.rdfield 0 0), Instr.row .clrbuf, Instr.row (.putbyte 0 0),
   Instr.row (.getbyte 0), Instr.row (.setfld 0 0), Instr.row (.getfld 0), Instr.row .clrfld, Instr.row .getstat,
   Instr.row .enchdrReq, Instr.row .enchdrRsp, Instr.row .dechdrReq, Instr.row .dechdrRsp]

/-- What the decoder of this hardware reads from an instruction of `nbits` bits `w`, bit 0 the least significant. A
command is one word of exactly 64 bits (R72), so a longer number is no command [log 16]. -/
def decodeTableWord (nbits w : Nat) : Option Instr :=
  if w % 2 ^ nbits < 2 ^ 64 then (decode (BitVec.ofNat 64 (w % 2 ^ nbits))).toOption else none

end Sys2Proof
end

