-- ==== Sys2Proof/Machine/State.lean ====
section
/-! DEFINITION. The state of the block (10_state.md), the model's two port fields, and reset (R33). -/

namespace Sys2Proof.Machine

/-- Reasons the model stops with a fault. There are none: the block's own faults are answers, after which it "does
not stop, lock up or need any acknowledgement" (60_exceptions.md R188), so they are next states [log 7]. Safe. -/
inductive Fault where
deriving DecidableEq, Repr

/-- Reasons the model gives no meaning. No command of the block is refused. -/
inductive Refusal where
  /-- An instruction with no meaning yet; raised by no arm of this model. Safe. -/
  | notModelled (mnemonic : String)
  /-- Raised by the packet layer's PARSEREQ on an odd `imageNameLength`: "a model refuses it" (92 D31, 93 U11). Safe. -/
  | oddNameLength
  /-- Raised by the packet layer's `extensionOf` on a code outside the table: "refuse for undefined codes" (93 U19).
  Safe. -/
  | undefinedImageTypeCode (code : BitVec 4)
  /-- Raised by the host layer if the block answered a command with no response; no step does so. Safe. -/
  | noAnswer
deriving DecidableEq, Repr

/-- The four faults of the block (R180). -/
inductive FaultKind where
  /-- The value does not fit its field (R181). -/
  | valueError
  /-- The addressed bits, byte or register do not exist (R182). -/
  | rangeError
  /-- A field length above MAXLEN (R183). -/
  | lengthError
  /-- The word selects no command (R184). -/
  | illegalCommand
deriving DecidableEq, Repr

/-- The response to a command: a 3-bit outcome code and 32 bits of data (R31). -/
structure Response where
  code : BitVec 3
  data : Word
deriving DecidableEq, Repr

/-- "The only events the block knows are a command arrives and reset" (60_exceptions.md R191). A reset carries the
command in progress when it is asserted, if there is one [log 4]. -/
inductive PortEvent where
  | command (word : CommandWord)
  | reset (inProgress : Option CommandWord)
deriving DecidableEq, Repr

/-- BUF: (index, byte) pairs, indices strictly rising, no byte equal to what an unlisted index reads as [log 5]. -/
structure Memory where
  cells : List Host.Cell
deriving DecidableEq, Repr

/-- What an unlisted byte of BUF reads as: its reset contents 0x00 (R33). -/
def Memory.unlisted : Byte := 0

/-- The canonical form of a list of cells all at or above index `lo`. -/
def Memory.canonicalFrom : Nat → List Host.Cell → Bool
  | _, [] => true
  | lo, (i, v) :: cs =>
    decide (lo ≤ i) && decide (i < Config.nbytes) && decide (v ≠ Memory.unlisted) && canonicalFrom (i + 1) cs

/-- The canonical form: strictly rising indices below NBYTES, no listed byte equal to `unlisted`. -/
def Memory.wf (m : Memory) : Bool := Memory.canonicalFrom 0 m.cells

/-- The five field registers FLD0 to FLD4 (R22). -/
structure FieldFile where
  fld0 : Word
  fld1 : Word
  fld2 : Word
  fld3 : Word
  fld4 : Word
deriving DecidableEq, Repr

/-- The state of one instance (R32, R34). `buf`, `fld` and `status` are all the state the spec gives the block;
`pending` and `response` are the model's own: the input and the output of the step function of R27 [log 1, 2]. -/
structure State where
  /-- BUF[0] .. BUF[11] (R20). -/
  buf : Memory
  /-- FLD0 .. FLD4 (R22). -/
  fld : FieldFile
  /-- STATUS: bit 7 FAULTED, bits 6:3 hardwired 0, bits 2:0 LAST (R28). -/
  status : BitVec 8
  /-- The events the host will present, the next one first (R26). -/
  pending : List PortEvent
  /-- The response the latest step handed over, if it executed a command (R31). -/
  response : Option Response
deriving DecidableEq, Repr

/-- All five field registers zero (R33, R135). -/
def FieldFile.zero : FieldFile := ⟨0, 0, 0, 0, 0⟩

/-- The machine right after reset (R33), with nothing pending and no response [log 1, 2]. -/
def State.reset : State where
  buf := ⟨[]⟩
  fld := FieldFile.zero
  status := 0
  pending := []
  response := none

end Sys2Proof.Machine
end

