-- ==== Sys2Proof/Machine/Flags.lean ====
section
/-! DEFINITION. STATUS and its two fields (10_state.md R28 to R30), and the fault codes (60_exceptions.md R180). -/

namespace Sys2Proof.Machine

/-- The code of a fault, in the response and in STATUS.LAST (R180). -/
def FaultKind.code : FaultKind → BitVec 3
  | .valueError => 1
  | .rangeError => 2
  | .lengthError => 3
  | .illegalCommand => 4

/-- The fault a code stands for; codes 0 (OK) and 5 to 7 stand for none (R28, R180). -/
def FaultKind.ofCode (c : BitVec 3) : Option FaultKind :=
  if c = 1 then some .valueError
  else if c = 2 then some .rangeError
  else if c = 3 then some .lengthError
  else if c = 4 then some .illegalCommand
  else none

/-- STATUS.FAULTED, bit 7 (R28). -/
def statusFaulted (st : BitVec 8) : Bool := st.getLsbD 7

/-- STATUS.LAST, bits 2:0 (R28). -/
def statusLast (st : BitVec 8) : BitVec 3 := st.extractLsb' 0 3

/-- STATUS with the given FAULTED and LAST; bits 6:3 are 0 (R28). -/
def statusOf (faulted : Bool) (last : BitVec 3) : BitVec 8 := BitVec.ofBool faulted ++ 0#4 ++ last

/-- What a read of STATUS gives: bits 6:3 are hardwired 0 (R28) [log 6]. -/
def statusRead (st : BitVec 8) : BitVec 8 := statusOf (statusFaulted st) (statusLast st)

/-- STATUS after a command that succeeds: LAST 0, FAULTED as it was (R29, R30). -/
def statusAfterOk (st : BitVec 8) : BitVec 8 := statusOf (statusFaulted st) 0

/-- STATUS after a fault: LAST its code, FAULTED 1 (R29, R30, R186). -/
def statusAfterFault (f : FaultKind) : BitVec 8 := statusOf true f.code

end Sys2Proof.Machine
end

