-- ==== Sys2Proof/Machine/Operands.lean ====
section
/-! DEFINITION. The operand forms: bit field address, byte index, register index, values and their checks
(20_memory.md R46, R48; 60_exceptions.md R181 to R185), and the two layout tables (41_header.md R110). -/

namespace Sys2Proof.Machine

/-- The address checks of a bit field `(off, len)` in a buffer of `nbytes` bytes, in their order: LengthError when
`len > 32`, then RangeError when `off + len > BUFBITS`, the sum exact (R48, R182, R183, R185). -/
def fieldFault (nbytes off len : Nat) : Option FaultKind :=
  if Config.maxLen < len then some .lengthError
  else if 8 * nbytes < off + len then some .rangeError
  else none

/-- Whether a value fits a field of `len` bits: `val < 2^len`, the power an exact natural (R90, R95, R221). -/
def valueFits (len val : Nat) : Bool := decide (val < 2 ^ len)

/-- The index check of a byte access (R48, R182). -/
def byteFault (nbytes idx : Nat) : Option FaultKind := if idx < nbytes then none else some .rangeError

/-- The index check of a register access (R182). -/
def fldFault (idx : Nat) : Option FaultKind := if idx < Config.nfld then none else some .rangeError

/-- The ordered field tables of the two layouts (R61, R62, R110). The response's reserved range is 4 bits, 28 to 31
(90_conflicts.md C1). -/
def layoutFields : Layout → List FieldDesc
  | .req =>
    [⟨.version, 0, 4⟩, ⟨.requestType, 24, 8⟩, ⟨.timestamp, 32, 32⟩, ⟨.imageTypeCode, 64, 4⟩,
     ⟨.imageNameLength, 68, 28⟩]
  | .rsp =>
    [⟨.version, 0, 4⟩, ⟨.responseType, 4, 8⟩, ⟨.sequenceNumber, 12, 16⟩, ⟨.timestamp, 32, 32⟩,
     ⟨.payloadLength, 64, 32⟩]

/-- The reserved range of a layout as (off, len): request bits 4 to 23, response bits 28 to 31 (R61, R62, R64). -/
def layoutReserved : Layout → Nat × Nat
  | .req => (4, 20)
  | .rsp => (28, 4)

/-- The field registers in order, FLD0 first (R23). -/
def FieldFile.toList (f : FieldFile) : List Word := [f.fld0, f.fld1, f.fld2, f.fld3, f.fld4]

/-- `FLD[i]`; there is no register above FLD4 (R10, R22). -/
def FieldFile.get? (f : FieldFile) : Nat → Option Word
  | 0 => some f.fld0
  | 1 => some f.fld1
  | 2 => some f.fld2
  | 3 => some f.fld3
  | 4 => some f.fld4
  | _ => none

/-- `FLD[i] <- v`; no register above FLD4 exists, and none is written (R10, R22). -/
def FieldFile.set (f : FieldFile) (i : Nat) (v : Word) : FieldFile :=
  match i with
  | 0 => { f with fld0 := v }
  | 1 => { f with fld1 := v }
  | 2 => { f with fld2 := v }
  | 3 => { f with fld3 := v }
  | 4 => { f with fld4 := v }
  | _ => f

/-- The check of ENCHDR: every register fits its field of the layout (R111, R112, R181). -/
def fieldsFit (l : Layout) (f : FieldFile) : Bool :=
  ((layoutFields l).zip f.toList).all fun p => valueFits p.1.len p.2.toNat

end Sys2Proof.Machine
end

