-- ==== Sys2Proof/Machine/Ops.lean ====
section
/-! DEFINITION. The named operations: bytes and bits of BUF (00_scope.md R10; 20_memory.md R41, R43), the codec loops
(40_bitfield.md R90, R91), the header codec (41_header.md), `respond` and `raise F` (R10, R186), reset (R210). -/

namespace Sys2Proof.Machine

/-- The byte a list of cells gives an index. -/
def readCells : List Host.Cell → Nat → Byte
  | [], _ => Memory.unlisted
  | (j, w) :: cs, i => if i = j then w else readCells cs i

/-- `BUF[i]` (R10). -/
def Memory.read (m : Memory) (i : Nat) : Byte := readCells m.cells i

/-- A list of cells with one byte put before it, unless it reads so unlisted. -/
def consCell (i : Nat) (v : Byte) (cs : List Host.Cell) : List Host.Cell :=
  if v = Memory.unlisted then cs else (i, v) :: cs

/-- A canonical list of cells with one byte replaced, in canonical form. -/
def writeCells : List Host.Cell → Nat → Byte → List Host.Cell
  | [], i, v => consCell i v []
  | (j, w) :: cs, i, v =>
    if i < j then consCell i v ((j, w) :: cs)
    else if i = j then consCell i v cs
    else (j, w) :: writeCells cs i v

/-- `BUF[i] <- v` (R10). -/
def Memory.write (m : Memory) (i : Nat) (v : Byte) : Memory := ⟨writeCells m.cells i v⟩

/-- All bytes zero (R130). -/
def Memory.cleared : Memory := ⟨[]⟩

/-- `MemRead(i, n)` on top of `acc`: `n` bytes as one big-endian number (R10). -/
def Memory.readBytesFrom (m : Memory) : Nat → Nat → Nat → Nat
  | 0, _, acc => acc
  | n + 1, i, acc => readBytesFrom m n (i + 1) (256 * acc + (m.read i).toNat)

/-- `MemRead(i, n)` (R10). -/
def Memory.readBytes (m : Memory) (i n : Nat) : Nat := m.readBytesFrom n i 0

/-- `MemWrite(i, n, v)`: byte `i + j` becomes `(v div 256^(n-1-j)) mod 256` (R10). -/
def Memory.writeBytes (m : Memory) (v : Nat) : Nat → Nat → Memory
  | 0, _ => m
  | n + 1, i => writeBytes (m.write i (BitVec.ofNat 8 (v / 256 ^ n))) v n (i + 1)

/-- The whole buffer as one big-endian number W (R43). -/
def Memory.whole (m : Memory) : Nat := m.readBytes 0 Config.nbytes

/-- `bit(k)`: bit `7 - (k mod 8)`, weight numbering, of byte `k div 8` (R10, R41). -/
def Memory.bit (m : Memory) (k : Nat) : Bool := (m.read (k / 8)).getLsbD (7 - k % 8)

/-- A byte with bit `j` (weight numbering) replaced. -/
def byteSetBit (v : Byte) (j : Nat) (b : Bool) : Byte :=
  if b then v ||| (1#8 <<< j) else v &&& ~~~(1#8 <<< j)

/-- `setbit(k, b)`: every other bit of BUF is unchanged (R10). -/
def Memory.setBit (m : Memory) (k : Nat) (b : Bool) : Memory :=
  m.write (k / 8) (byteSetBit (m.read (k / 8)) (7 - k % 8) b)

/-- The loop of RDFIELD: `v <- 2*v + bit(off + i)`, `len` times (R91). -/
def Memory.readFieldFrom (m : Memory) : Nat → Nat → Nat → Nat
  | 0, _, v => v
  | len + 1, off, v => readFieldFrom m len (off + 1) (2 * v + (m.bit off).toNat)

/-- The unsigned value of the field `(off, len)` (R91). -/
def Memory.readField (m : Memory) (off len : Nat) : Nat := m.readFieldFrom len off 0

/-- The loop of WRFIELD: value bit `len-1-i` goes to absolute index `off + i` (R90; the order of the writes is
unobservable, 90_conflicts.md C3). -/
def Memory.writeField (m : Memory) (val : Nat) : Nat → Nat → Memory
  | _, 0 => m
  | off, len + 1 => writeField (m.setBit off (val.testBit len)) val (off + 1) len

/-- The writes of ENCHDR: every field of the layout from its register (R111, R112). -/
def writeHeaderFields (m : Memory) : List (FieldDesc × Word) → Memory
  | [] => m
  | (d, v) :: ps => writeHeaderFields (m.writeField v.toNat d.off d.len) ps

/-- The 12 bytes of a header: all cleared, then the five fields written (R111, R112). -/
def encodeHeaderBuf (l : Layout) (f : FieldFile) : Memory :=
  writeHeaderFields Memory.cleared ((layoutFields l).zip f.toList)

/-- The loop of DECHDR from register `i` on: `FLD[i] <- zext_32(field)` (R113, R114). -/
def readHeaderFields (m : Memory) : Nat → List FieldDesc → FieldFile → FieldFile
  | _, [], f => f
  | i, d :: ds, f => readHeaderFields m (i + 1) ds (f.set i (BitVec.ofNat 32 (m.readField d.off d.len)))

/-- The five fields of BUF under a layout, over the registers as they were (R113, R114). -/
def decodeHeaderFld (l : Layout) (m : Memory) (f : FieldFile) : FieldFile :=
  readHeaderFields m 0 (layoutFields l) f

/-- `respond(d)`: the command ends with response `(0, d)`; LAST <- 0 (R10). -/
def State.respond (s : State) (d : Word) : State :=
  { s with status := statusAfterOk s.status, response := some ⟨0, d⟩ }

/-- `respond_keeping_LAST(d)`: `respond(d)` without the write of STATUS (R136). -/
def State.respondKeepingLast (s : State) (d : Word) : State := { s with response := some ⟨0, d⟩ }

/-- `raise F`, taking a fault: BUF and FLD unchanged, LAST <- code, FAULTED <- 1, response `(code, 0)`. Nothing is
saved and control goes nowhere, so there is no return from it (R186, R188). -/
def State.raiseFault (s : State) (f : FaultKind) : State :=
  { s with status := statusAfterFault f, response := some ⟨f.code, 0⟩ }

/-- A state with another BUF. -/
def State.setBuf (s : State) (m : Memory) : State := { s with buf := m }

/-- A state with other field registers. -/
def State.setFld (s : State) (f : FieldFile) : State := { s with fld := f }

/-- Reset applied from outside: every piece of the block's state takes its reset value and there is no response
(R191, R210). What the host has yet to present is the host's and stays [log 4]. -/
def State.applyReset (s : State) : State := { State.reset with pending := s.pending }

/-- ENCHDR.L: ValueError if a register does not fit its field, before any write; else BUF is the header (R111,
R112, R187). -/
def State.encodeHeader (s : State) (l : Layout) : State :=
  if fieldsFit l s.fld then (s.setBuf (encodeHeaderBuf l s.fld)).respond 0 else s.raiseFault .valueError

/-- DECHDR.L: all five registers from BUF; no fault (R113, R114). -/
def State.decodeHeader (s : State) (l : Layout) : State :=
  (s.setFld (decodeHeaderFld l s.buf s.fld)).respond 0

end Sys2Proof.Machine
end

