-- ==== Sys2Proof/Machine/Access.lean ====
section
/-! DEFINITION. The access commands (42_access.md). -/

namespace Sys2Proof.Machine

/-- CLRBUF (R130). -/
def execClrbuf (s : State) : Host.Outcome State Fault Refusal := .next ((s.setBuf Memory.cleared).respond 0)

/-- PUTBYTE idx, byte: RangeError, then ValueError when `byte >= 256` (R131). -/
def execPutbyte (idx : BitVec 16) (byte : Word) (s : State) : Host.Outcome State Fault Refusal :=
  match byteFault Config.nbytes idx.toNat with
  | some f => .next (s.raiseFault f)
  | none =>
    if valueFits 8 byte.toNat then
      .next ((s.setBuf (s.buf.write idx.toNat (BitVec.ofNat 8 byte.toNat))).respond 0)
    else .next (s.raiseFault .valueError)

/-- GETBYTE idx: the byte zero-extended to 32 bits (R132). -/
def execGetbyte (idx : BitVec 16) (s : State) : Host.Outcome State Fault Refusal :=
  match byteFault Config.nbytes idx.toNat with
  | some f => .next (s.raiseFault f)
  | none => .next (s.respond ((s.buf.read idx.toNat).setWidth 32))

/-- SETFLD idx, val: any 32-bit value is accepted (R133). -/
def execSetfld (idx : BitVec 16) (val : Word) (s : State) : Host.Outcome State Fault Refusal :=
  match fldFault idx.toNat with
  | some f => .next (s.raiseFault f)
  | none => .next ((s.setFld (s.fld.set idx.toNat val)).respond 0)

/-- GETFLD idx (R134). -/
def execGetfld (idx : BitVec 16) (s : State) : Host.Outcome State Fault Refusal :=
  match s.fld.get? idx.toNat with
  | some v => .next (s.respond v)
  | none => .next (s.raiseFault .rangeError)

/-- CLRFLD (R135). -/
def execClrfld (s : State) : Host.Outcome State Fault Refusal := .next ((s.setFld FieldFile.zero).respond 0)

/-- GETSTAT: STATUS in data bits 7:0; changes no state, not even LAST (R29, R136). -/
def execGetstat (s : State) : Host.Outcome State Fault Refusal :=
  .next (s.respondKeepingLast ((statusRead s.status).setWidth 32))

end Sys2Proof.Machine
end

