-- ==== Sys2Proof/Machine/BitField.lean ====
section
/-! DEFINITION. WRFIELD and RDFIELD (40_bitfield.md). -/

namespace Sys2Proof.Machine

/-- WRFIELD off, len, val (R90; faults R181 to R183 in the order of R185; zero length R96). -/
def execWrfield (off : BitVec 16) (len : BitVec 8) (val : Word) (s : State) : Host.Outcome State Fault Refusal :=
  match fieldFault Config.nbytes off.toNat len.toNat with
  | some f => .next (s.raiseFault f)
  | none =>
    if valueFits len.toNat val.toNat then
      .next ((s.setBuf (s.buf.writeField val.toNat off.toNat len.toNat)).respond 0)
    else .next (s.raiseFault .valueError)

/-- RDFIELD off, len (R91; faults R182, R183 in the order of R185; zero length R96). -/
def execRdfield (off : BitVec 16) (len : BitVec 8) (s : State) : Host.Outcome State Fault Refusal :=
  match fieldFault Config.nbytes off.toNat len.toNat with
  | some f => .next (s.raiseFault f)
  | none => .next (s.respond (BitVec.ofNat 32 (s.buf.readField off.toNat len.toNat)))

end Sys2Proof.Machine
end

