-- ==== Sys2Proof/Machine/Header.lean ====
section
/-! DEFINITION. The header commands (41_header.md). -/

namespace Sys2Proof.Machine

/-- ENCHDR.REQ (R111). -/
def execEnchdrReq (s : State) : Host.Outcome State Fault Refusal := .next (s.encodeHeader .req)

/-- ENCHDR.RSP (R112). -/
def execEnchdrRsp (s : State) : Host.Outcome State Fault Refusal := .next (s.encodeHeader .rsp)

/-- DECHDR.REQ (R113). -/
def execDechdrReq (s : State) : Host.Outcome State Fault Refusal := .next (s.decodeHeader .req)

/-- DECHDR.RSP (R114). -/
def execDechdrRsp (s : State) : Host.Outcome State Fault Refusal := .next (s.decodeHeader .rsp)

end Sys2Proof.Machine
end

