-- ==== Sys2Proof/Machine/Dispatch.lean ====
section
/-! DEFINITION. The dispatch: one arm per command of 30_encoding.md R76. -/

namespace Sys2Proof.Machine

def exec (i : Instr) (s : State) : Host.Outcome State Fault Refusal :=
  match i with
  | .wrfield off len val => Sys2Proof.Machine.execWrfield off len val s
  | .rdfield off len => Sys2Proof.Machine.execRdfield off len s
  | .clrbuf => Sys2Proof.Machine.execClrbuf s
  | .putbyte idx byte => Sys2Proof.Machine.execPutbyte idx byte s
  | .getbyte idx => Sys2Proof.Machine.execGetbyte idx s
  | .setfld idx val => Sys2Proof.Machine.execSetfld idx val s
  | .getfld idx => Sys2Proof.Machine.execGetfld idx s
  | .clrfld => Sys2Proof.Machine.execClrfld s
  | .getstat => Sys2Proof.Machine.execGetstat s
  | .enchdrReq => Sys2Proof.Machine.execEnchdrReq s
  | .enchdrRsp => Sys2Proof.Machine.execEnchdrRsp s
  | .dechdrReq => Sys2Proof.Machine.execDechdrReq s
  | .dechdrRsp => Sys2Proof.Machine.execDechdrRsp s

end Sys2Proof.Machine
end

