-- ==== Sys2Proof/Machine/Port.lean ====
section
/-! DEFINITION. The command port: what a presented word, a reset and an idle port do (10_state.md R26, R27;
60_exceptions.md R190, R191; 92 D7). -/

namespace Sys2Proof.Machine

/-- A word selects one command and executes it, or faults with IllegalCommand (R77 to R79, R184). -/
def execWord (w : CommandWord) (s : State) : Host.Outcome State Fault Refusal :=
  match decode w with
  | .ok i => exec i s
  | .error _ => .next (s.raiseFault .illegalCommand)

/-- One event at the port. A command in progress at a reset has no effect and no response (R191, R210). -/
def handleEvent (e : PortEvent) (s : State) : Host.Outcome State Fault Refusal :=
  match e with
  | .command w => execWord w s
  | .reset _ => .next s.applyReset

/-- The port without an event: the block "never acts except in answer to a command" (R190), so nothing changes and
no response is handed over [log 3]. -/
def idle (s : State) : Host.Outcome State Fault Refusal := .next { s with response := none }

/-- One step of the block: the next event, wholly before the one after it (R12, R51). -/
def portStep (s : State) : Host.Outcome State Fault Refusal :=
  match s.pending with
  | [] => idle s
  | e :: es => handleEvent e { s with pending := es }

/-- A state in which the host presents a word next. -/
def State.present (s : State) (w : CommandWord) : State := { s with pending := .command w :: s.pending }

end Sys2Proof.Machine
end

