-- ==== Sys2Proof/Machine/Step.lean ====
section
/-! DEFINITION. The step of the machine, and the placing of a command word where the next step takes it. -/

namespace Sys2Proof.Machine

/-- One step: R27's step function, its command taken from `pending` and its response left in `response`. -/
def step (s : State) : Host.Outcome State Fault Refusal := portStep s

/-- The word `w` of `nbits` bits presented as the next command [log 1]. -/
def State.withFetchWord (s : State) (nbits w : Nat) : State := s.present (BitVec.ofNat 64 (w % 2 ^ nbits))

end Sys2Proof.Machine
end

