-- ==== Sys2Proof/Machine/Assembler.lean ====
section
/-! DEFINITION. The assembler syntax of 30_encoding.md R81: one command a line, unsigned numerals, field register
names, comments, and the response written after `=>`. The points R81 leaves open are [log 14]. -/

namespace Sys2Proof.Machine

/-- A response as R81 writes it: `OK data` or the fault's name. -/
inductive AsmResponse where
  | ok (data : Nat)
  | fault (f : FaultKind)
deriving DecidableEq, Repr

/-- What a line stands for. -/
inductive AsmLine where
  /-- Nothing but blanks and a comment. -/
  | blank
  /-- A command, and the response written after it if there is one. -/
  | command (i : Instr) (expect : Option AsmResponse)
  /-- No line of R81's syntax, or an operand that does not fit its field. -/
  | bad
deriving DecidableEq, Repr

/-- The blanks between the parts of a line. -/
def isBlank (c : Char) : Bool := c == ' ' || c == '\t'

/-- A text without leading and trailing blanks. -/
def trimBlanks (cs : List Char) : List Char := ((cs.dropWhile isBlank).reverse.dropWhile isBlank).reverse

/-- "`;` starts a comment" (R81). -/
def dropComment (cs : List Char) : List Char := cs.takeWhile (· != ';')

/-- The text before and after `=>`. -/
def splitArrow : List Char → List Char × Option (List Char)
  | [] => ([], none)
  | '=' :: '>' :: cs => ([], some cs)
  | c :: cs =>
    let p := splitArrow cs
    (c :: p.1, p.2)

/-- The operands of a comma-separated list. -/
def splitCommas : List Char → List (List Char)
  | [] => [[]]
  | ',' :: cs => [] :: splitCommas cs
  | c :: cs =>
    match splitCommas cs with
    | [] => [[c]]
    | p :: ps => (c :: p) :: ps

/-- The digits of R81's numerals in the order of their values; a decimal numeral has the first ten [log 14]. -/
def digitOrder : List Char := "0123456789abcdef".toList

/-- The number a run of digits of a base writes, on top of `acc`: a digit is worth its place in `digitOrder`, a
hexadecimal letter in either case [log 14]. -/
def digitsValue (base : Nat) : Nat → List Char → Option Nat
  | acc, [] => some acc
  | acc, c :: cs =>
    ((digitOrder.take base).findIdx? (· == c.toLower)).bind fun place => digitsValue base (base * acc + place) cs

/-- "Operands are unsigned numerals, decimal or `0x` hexadecimal" (R81). -/
def numeral : List Char → Option Nat
  | '0' :: 'x' :: d :: ds => digitsValue 16 0 (d :: ds)
  | d :: ds => digitsValue 10 0 (d :: ds)
  | [] => none

/-- The names of the field registers: `FLDn` and the layout-qualified field names (R23, R81). -/
def fldNames : List (List Char × Nat) :=
  [("FLD0".toList, 0), ("FLD1".toList, 1), ("FLD2".toList, 2), ("FLD3".toList, 3), ("FLD4".toList, 4),
   ("REQ.version".toList, 0), ("RSP.version".toList, 0),
   ("REQ.requestType".toList, 1), ("RSP.responseType".toList, 1),
   ("REQ.timestamp".toList, 2), ("RSP.sequenceNumber".toList, 2),
   ("REQ.imageTypeCode".toList, 3), ("RSP.timestamp".toList, 3),
   ("REQ.imageNameLength".toList, 4), ("RSP.payloadLength".toList, 4)]

/-- A field register index: a name or a numeral (R81). -/
def fldIndex (cs : List Char) : Option Nat :=
  match fldNames.find? fun p => p.1 == cs with
  | some p => some p.2
  | none => numeral cs

/-- A number as an operand field of `width` bits; a number that does not fit cannot be written (R75). -/
def asOperand (width : Nat) (n : Option Nat) : Option (BitVec width) :=
  match n with
  | some v => if v < 2 ^ width then some (BitVec.ofNat width v) else none
  | none => none

/-- The command of a mnemonic and its operands, in the order `a, b, imm` (R81). -/
def assembleCommand (mnemonic : List Char) (ops : List (List Char)) : Option Instr :=
  match ops with
  | [] =>
    if mnemonic = "CLRBUF".toList then some .clrbuf
    else if mnemonic = "CLRFLD".toList then some .clrfld
    else if mnemonic = "GETSTAT".toList then some .getstat
    else if mnemonic = "ENCHDR.REQ".toList then some .enchdrReq
    else if mnemonic = "ENCHDR.RSP".toList then some .enchdrRsp
    else if mnemonic = "DECHDR.REQ".toList then some .dechdrReq
    else if mnemonic = "DECHDR.RSP".toList then some .dechdrRsp
    else none
  | [x] =>
    if mnemonic = "GETBYTE".toList then (asOperand 16 (numeral x)).map .getbyte
    else if mnemonic = "GETFLD".toList then (asOperand 16 (fldIndex x)).map .getfld
    else none
  | [x, y] =>
    if mnemonic = "PUTBYTE".toList then
      (asOperand 16 (numeral x)).bind fun a => (asOperand 32 (numeral y)).map fun v => .putbyte a v
    else if mnemonic = "SETFLD".toList then
      (asOperand 16 (fldIndex x)).bind fun a => (asOperand 32 (numeral y)).map fun v => .setfld a v
    else if mnemonic = "RDFIELD".toList then
      (asOperand 16 (numeral x)).bind fun a => (asOperand 8 (numeral y)).map fun b => .rdfield a b
    else none
  | [x, y, z] =>
    if mnemonic = "WRFIELD".toList then
      (asOperand 16 (numeral x)).bind fun a => (asOperand 8 (numeral y)).bind fun b =>
        (asOperand 32 (numeral z)).map fun v => .wrfield a b v
    else none
  | _ => none

/-- A response: `OK data` or a fault's name (R81). -/
def assembleResponse (cs : List Char) : Option AsmResponse :=
  let t := trimBlanks cs
  if t = "ValueError".toList then some (.fault .valueError)
  else if t = "RangeError".toList then some (.fault .rangeError)
  else if t = "LengthError".toList then some (.fault .lengthError)
  else if t = "IllegalCommand".toList then some (.fault .illegalCommand)
  else
    match t with
    | 'O' :: 'K' :: c :: ds => if isBlank c then (numeral (trimBlanks ds)).map .ok else none
    | _ => none

/-- One line of a program (R81). -/
def assembleLine (line : List Char) : AsmLine :=
  let p := splitArrow (dropComment line)
  let text := trimBlanks p.1
  let mnemonic := text.takeWhile fun c => !isBlank c
  let rest := trimBlanks (text.dropWhile fun c => !isBlank c)
  let ops := if rest = [] then [] else (splitCommas rest).map trimBlanks
  match text, p.2 with
  | [], none => .blank
  | _, none =>
    match assembleCommand mnemonic ops with
    | some i => .command i none
    | none => .bad
  | _, some r =>
    match assembleCommand mnemonic ops, assembleResponse r with
    | some i, some e => .command i (some e)
    | _, _ => .bad

end Sys2Proof.Machine
end

