-- ==== Sys2Proof/Machine/HostRun.lean ====
section
/-! DEFINITION. The host's side of the port: one word with its response, and a run as "the fold of `step` over a
finite list of command words chosen by the host" (10_state.md R27). -/

namespace Sys2Proof.Machine

/-- The host presents one word; the state after it, and the response (R27, R31). -/
def issueWord (w : CommandWord) (s : State) : State × Option Response :=
  match step (s.present w) with
  | .next t => (t, t.response)
  | .fault _ => (s, none)
  | .refused _ => (s, none)

/-- A run: the state after the words, and the response to each (R27). -/
def runWords : List CommandWord → State → State × List (Option Response)
  | [], s => (s, [])
  | w :: ws, s =>
    let p := issueWord w s
    let q := runWords ws p.1
    (q.1, p.2 :: q.2)

end Sys2Proof.Machine
end

