-- ==== Sys2Proof/Machine/Packet.lean ====
section
/-! DEFINITION. The packet layer of 43_packet_layer.md: BUILDREQ, PARSEREQ, BUILDRSP, PARSERSP as functions of a host
layer that drives the block through its step (R150), and the enumerations of field values (30_encoding.md R66 to
R68). Nothing here is state of the block. -/

namespace Sys2Proof.Machine

/-- The six image types (R68). -/
inductive ImageType where
  | bmp
  | jpeg
  | gif
  | png
  | tiff
  | raw
deriving DecidableEq, Repr

/-- The defined response types (R67). -/
inductive ResponseType where
  | query
  | found
  | notFound
  | busy
deriving DecidableEq, Repr

/-- What a macro returns to its caller (R150). `UnknownExtension` and `TruncatedPacket` are no faults of the block. -/
inductive PacketResult (α : Type) where
  | ok (a : α)
  /-- The extension is outside the table; no command was issued (R152, R197). -/
  | unknownExtension
  /-- Fewer bytes than declared, or fewer than 12 (R154, R156, R197). -/
  | truncatedPacket
  /-- A command of the expansion faulted; there is no packet (R153, R155, R159). -/
  | blockFault (f : FaultKind)
  /-- The spec gives the case no meaning. -/
  | refused (r : Refusal)
deriving DecidableEq, Repr

/-- The fields `parseRequest` returns (R154); `imageNameLength` is not among them. -/
structure ParsedRequest where
  version : Nat
  requestType : Nat
  timestamp : Nat
  imageTypeCode : Nat
  imageName : List CodeUnit
deriving DecidableEq, Repr

/-- The fields `parseResponse` returns (R156). -/
structure ParsedResponse where
  version : Nat
  responseType : Nat
  sequenceNumber : Nat
  timestamp : Nat
  payloadLength : Nat
  payload : List Byte
deriving DecidableEq, Repr

/-- The code of an image type (R68). -/
def ImageType.code : ImageType → BitVec 4
  | .bmp => 1
  | .jpeg => 2
  | .gif => 3
  | .png => 4
  | .tiff => 5
  | .raw => 15

/-- The extension name of an image type (R68). -/
def ImageType.name : ImageType → List Char
  | .bmp => ['B', 'M', 'P']
  | .jpeg => ['J', 'P', 'E', 'G']
  | .gif => ['G', 'I', 'F']
  | .png => ['P', 'N', 'G']
  | .tiff => ['T', 'I', 'F', 'F']
  | .raw => ['R', 'A', 'W']

/-- "The 6-entry table" (R68). -/
def imageTypes : List ImageType := [.bmp, .jpeg, .gif, .png, .tiff, .raw]

/-- The code of a response type (R67). -/
def ResponseType.code : ResponseType → BitVec 8
  | .query => 0
  | .found => 1
  | .notFound => 2
  | .busy => 3

/-- `requestType` of a client's query: "requestType=0 fixed for client-initiated queries" (R66). -/
def requestTypeQuery : Nat := 0

/-- The image type an extension names, letter case apart; only the six names match (R152, D32) [log 10]. -/
def typeOfExtension (ext : List Char) : Option ImageType :=
  imageTypes.find? fun t => t.name == ext.map Char.toUpper

/-- `codeOf(ext)` (R152); `none` is `UnknownExtension`. -/
def codeOf (ext : List Char) : Option (BitVec 4) := (typeOfExtension ext).map ImageType.code

/-- The image type of a code; 0 and 6 to 14 are not defined (R68). -/
def typeOfCode (code : BitVec 4) : Option ImageType := imageTypes.find? fun t => t.code == code

/-- `extensionOf(code)` (R152): the name, each letter in a case the spec does not state [log 11]; an undefined code is
refused (93 U19). -/
def extensionOf (code : BitVec 4) : PacketResult (List Char) :=
  match typeOfCode code with
  | some t => .ok (t.name.mapIdx fun i c => if Config.extensionUpper code i then c else c.toLower)
  | none => .refused (.undefinedImageTypeCode code)

/-- `nameBytes(name)`: two bytes per code unit, high byte first (R151). -/
def nameBytes : List CodeUnit → List Byte
  | [] => []
  | u :: us => u.extractLsb' 8 8 :: u.extractLsb' 0 8 :: nameBytes us

/-- `nameOf(bytes)` for an even number of bytes; an odd number has no meaning (R151, 93 U11). -/
def nameOf : List Byte → Option (List CodeUnit)
  | [] => some []
  | [_] => none
  | hi :: lo :: bs => (nameOf bs).map ((hi ++ lo) :: ·)

/-- The result with its value mapped. -/
def PacketResult.map {α β : Type} (f : α → β) : PacketResult α → PacketResult β
  | .ok a => .ok (f a)
  | .unknownExtension => .unknownExtension
  | .truncatedPacket => .truncatedPacket
  | .blockFault k => .blockFault k
  | .refused r => .refused r

/-- The next result, if this one is a value. -/
def PacketResult.andThen {α β : Type} (r : PacketResult α) (f : α → PacketResult β) : PacketResult β :=
  match r with
  | .ok a => f a
  | .unknownExtension => .unknownExtension
  | .truncatedPacket => .truncatedPacket
  | .blockFault k => .blockFault k
  | .refused e => .refused e

/-- A command sequence: the host stops at the first fault (R159). The data of every response, in order. -/
def issueAll : List Instr → State → State × PacketResult (List Word)
  | [], s => (s, .ok [])
  | i :: is, s =>
    match issueWord (encode i) s with
    | (t, none) => (t, .refused .noAnswer)
    | (t, some r) =>
      match FaultKind.ofCode r.code with
      | some f => (t, .blockFault f)
      | none =>
        let q := issueAll is t
        (q.1, q.2.map (r.data :: ·))

/-- `SETFLD i, v` for each value, from register `i` on (R159). -/
def setfldCommands : Nat → List Word → List Instr
  | _, [] => []
  | i, v :: vs => .setfld (BitVec.ofNat 16 i) v :: setfldCommands (i + 1) vs

/-- `PUTBYTE i, h[i]` for each byte, from index `i` on (R159). -/
def putbyteCommands : Nat → List Byte → List Instr
  | _, [] => []
  | i, v :: vs => .putbyte (BitVec.ofNat 16 i) (v.setWidth 32) :: putbyteCommands (i + 1) vs

/-- ENCHDR of a layout (R159). -/
def enchdrOf : Layout → Instr
  | .req => .enchdrReq
  | .rsp => .enchdrRsp

/-- DECHDR of a layout (R159). -/
def dechdrOf : Layout → Instr
  | .req => .dechdrReq
  | .rsp => .dechdrRsp

/-- The eighteen commands of `encodeHeader` (R159). -/
def encodeHeaderCommands (l : Layout) (fs : List Word) : List Instr :=
  setfldCommands 0 fs ++ enchdrOf l :: (List.range Config.hdrBytes).map fun i => .getbyte (BitVec.ofNat 16 i)

/-- The eighteen commands of `decodeHeader` (R159). -/
def decodeHeaderCommands (l : Layout) (h : List Byte) : List Instr :=
  putbyteCommands 0 h ++ dechdrOf l :: (List.range Config.nfld).map fun i => .getfld (BitVec.ofNat 16 i)

/-- Whether a value fits the 32-bit immediate of SETFLD (R159). -/
def expressible (v : Nat) : Bool := decide (v < 2 ^ 32)

/-- `encodeHeader(L, f0, .., f4)`: the twelve header bytes (R159). A value that does not fit SETFLD's immediate is
the ValueError it would be; the host has then issued the SETFLDs before it [log 9]. -/
def encodeHeaderMacro (l : Layout) (fs : List Nat) (s : State) : State × PacketResult (List Byte) :=
  if fs.all expressible then
    let q := issueAll (encodeHeaderCommands l (fs.map (BitVec.ofNat 32))) s
    (q.1, q.2.map fun ds => (ds.drop (fs.length + 1)).map (BitVec.setWidth 8))
  else
    let q := issueAll (setfldCommands 0 ((fs.takeWhile expressible).map (BitVec.ofNat 32))) s
    (q.1, q.2.andThen fun _ => .blockFault .valueError)

/-- `decodeHeader(L, h)` for twelve bytes: the five field values (R159). -/
def decodeHeaderMacro (l : Layout) (h : List Byte) (s : State) : State × PacketResult (List Nat) :=
  let q := issueAll (decodeHeaderCommands l h) s
  (q.1, q.2.map fun ds => (ds.drop (h.length + 1)).map BitVec.toNat)

/-- BUILDREQ (R153). -/
def buildReq (version : Nat) (imageBaseName : List CodeUnit) (imageExtension : List Char) (timestamp : Nat)
    (s : State) : State × PacketResult (List Byte) :=
  match codeOf imageExtension with
  | none => (s, .unknownExtension)
  | some code =>
    let payload := nameBytes imageBaseName
    let q := encodeHeaderMacro .req [version, requestTypeQuery, timestamp, code.toNat, payload.length] s
    (q.1, q.2.map (· ++ payload))

/-- The part of PARSEREQ after the header is decoded: the length test, then the name (R154). -/
def finishRequest (bytes : List Byte) : List Nat → PacketResult ParsedRequest
  | [version, requestType, timestamp, imageTypeCode, imageNameLength] =>
    if bytes.length < Config.hdrBytes + imageNameLength then .truncatedPacket
    else
      match nameOf ((bytes.drop Config.hdrBytes).take imageNameLength) with
      | some name => .ok ⟨version, requestType, timestamp, imageTypeCode, name⟩
      | none => .refused .oddNameLength
  | _ => .refused .noAnswer

/-- PARSEREQ (R154). -/
def parseReq (bytes : List Byte) (s : State) : State × PacketResult ParsedRequest :=
  if bytes.length < Config.hdrBytes then (s, .truncatedPacket)
  else
    let q := decodeHeaderMacro .req (bytes.take Config.hdrBytes) s
    (q.1, q.2.andThen (finishRequest bytes))

/-- BUILDRSP (R155). -/
def buildRsp (version responseType sequenceNumber timestamp : Nat) (payload : List Byte) (s : State) :
    State × PacketResult (List Byte) :=
  let q := encodeHeaderMacro .rsp [version, responseType, sequenceNumber, timestamp, payload.length] s
  (q.1, q.2.map (· ++ payload))

/-- The part of PARSERSP after the header is decoded: the length test, then the payload (R156; a declared length
beyond the bytes present is an error, 90_conflicts.md C6). -/
def finishResponse (bytes : List Byte) : List Nat → PacketResult ParsedResponse
  | [version, responseType, sequenceNumber, timestamp, payloadLength] =>
    if bytes.length < Config.hdrBytes + payloadLength then .truncatedPacket
    else
      .ok ⟨version, responseType, sequenceNumber, timestamp, payloadLength,
        (bytes.drop Config.hdrBytes).take payloadLength⟩
  | _ => .refused .noAnswer

/-- PARSERSP (R156). -/
def parseRsp (bytes : List Byte) (s : State) : State × PacketResult ParsedResponse :=
  if bytes.length < Config.hdrBytes then (s, .truncatedPacket)
  else
    let q := decodeHeaderMacro .rsp (bytes.take Config.hdrBytes) s
    (q.1, q.2.andThen (finishResponse bytes))

end Sys2Proof.Machine
end

