-- ==== Sys2Proof/Safety.lean ====
section
/-! DEFINITION. What counts as a good state and a good run, and the ways a command can end, in the terms the
statements use. -/

namespace Sys2Proof.Machine

/-- "No fault recorded" (10_state.md R30): FAULTED is 0. -/
def State.noFaultRecorded (s : State) : Bool := !statusFaulted s.status

/-- STATUS as the spec says it can be: bits 6:3 are 0, LAST is 0 to 4 ("5 to 7 never occur"), and a fault code in
LAST has set FAULTED (R28, R30). -/
def statusLegal (st : BitVec 8) : Bool :=
  decide (st.extractLsb' 3 4 = 0) && decide ((statusLast st).toNat ≤ 4) && (statusFaulted st || statusLast st == 0)

/-- The invariant of the block: BUF in its canonical form and within NBYTES bytes, STATUS legal. -/
def State.Inv (s : State) : Prop := s.buf.wf = true ∧ statusLegal s.status = true

/-- The end of a command that succeeds with data `d`: response `(0, d)`, LAST 0, FAULTED as it was, STATUS bits 6:3
zero (R10 `respond`, R28 to R31). It says nothing of BUF and FLD. -/
def EndsOk (s t : State) (d : Word) : Prop :=
  t.response = some ⟨0, d⟩ ∧ statusLast t.status = 0 ∧ statusFaulted t.status = statusFaulted s.status ∧
    t.status.extractLsb' 3 4 = 0

/-- The end of a command that takes fault `k` (60_exceptions.md R186): BUF and FLD as they were, LAST the code,
FAULTED 1, response `(code, 0)`. -/
def EndsFault (s t : State) (k : FaultKind) : Prop :=
  t.buf = s.buf ∧ t.fld = s.fld ∧ statusLast t.status = k.code ∧ statusFaulted t.status = true ∧
    t.response = some ⟨k.code, 0⟩

/-- The words of opcode `op` run the command `i` when their must-be-zero fields are zero and take IllegalCommand when
one is not (30_encoding.md R77). -/
def WordRuns (op : BitVec 8) (zero : CommandWord → Bool) (i : CommandWord → Instr) : Prop :=
  ∀ (w : CommandWord) (s : State), wordOp w = op →
    (zero w = true → execWord w s = exec (i w) s) ∧
    (zero w = false → ∃ t, execWord w s = .next t ∧ EndsFault s t .illegalCommand)

/-- The words whose `a`, `b` and `imm` are zero. -/
def noOperands (w : CommandWord) : Bool := wordA w == 0 && wordB w == 0 && wordImm w == 0

/-- LengthError's causes (R183). -/
def lengthCause : Instr → Bool
  | .wrfield _ len _ => decide (32 < len.toNat)
  | .rdfield _ len => decide (32 < len.toNat)
  | .clrbuf => false
  | .putbyte _ _ => false
  | .getbyte _ => false
  | .setfld _ _ => false
  | .getfld _ => false
  | .clrfld => false
  | .getstat => false
  | .enchdrReq => false
  | .enchdrRsp => false
  | .dechdrReq => false
  | .dechdrRsp => false

/-- RangeError's causes (R182). -/
def rangeCause : Instr → Bool
  | .wrfield off len _ => decide (96 < off.toNat + len.toNat)
  | .rdfield off len => decide (96 < off.toNat + len.toNat)
  | .clrbuf => false
  | .putbyte idx _ => decide (12 ≤ idx.toNat)
  | .getbyte idx => decide (12 ≤ idx.toNat)
  | .setfld idx _ => decide (5 ≤ idx.toNat)
  | .getfld idx => decide (5 ≤ idx.toNat)
  | .clrfld => false
  | .getstat => false
  | .enchdrReq => false
  | .enchdrRsp => false
  | .dechdrReq => false
  | .dechdrRsp => false

/-- ValueError's causes (R181), the field widths of the header commands written out (R111, R112). -/
def valueCause (f : FieldFile) : Instr → Bool
  | .wrfield _ len val => decide (2 ^ len.toNat ≤ val.toNat)
  | .rdfield _ _ => false
  | .clrbuf => false
  | .putbyte _ byte => decide (256 ≤ byte.toNat)
  | .getbyte _ => false
  | .setfld _ _ => false
  | .getfld _ => false
  | .clrfld => false
  | .getstat => false
  | .enchdrReq =>
    decide (16 ≤ f.fld0.toNat ∨ 256 ≤ f.fld1.toNat ∨ 16 ≤ f.fld3.toNat ∨ 268435456 ≤ f.fld4.toNat)
  | .enchdrRsp => decide (16 ≤ f.fld0.toNat ∨ 256 ≤ f.fld1.toNat ∨ 65536 ≤ f.fld2.toNat)
  | .dechdrReq => false
  | .dechdrRsp => false

/-- The fault a command reports: the first of its causes in the order LengthError, RangeError, ValueError (R185;
IllegalCommand comes before them, at decoding). -/
def firstFault (f : FieldFile) (i : Instr) : Option FaultKind :=
  if lengthCause i then some .lengthError
  else if rangeCause i then some .rangeError
  else if valueCause f i then some .valueError
  else none

/-- The commands that may write BUF (42_access.md R137). -/
def mayWriteBuf : Instr → Bool
  | .wrfield _ _ _ => true
  | .rdfield _ _ => false
  | .clrbuf => true
  | .putbyte _ _ => true
  | .getbyte _ => false
  | .setfld _ _ => false
  | .getfld _ => false
  | .clrfld => false
  | .getstat => false
  | .enchdrReq => true
  | .enchdrRsp => true
  | .dechdrReq => false
  | .dechdrRsp => false

/-- The commands that may write FLD (42_access.md R137). -/
def mayWriteFld : Instr → Bool
  | .wrfield _ _ _ => false
  | .rdfield _ _ => false
  | .clrbuf => false
  | .putbyte _ _ => false
  | .getbyte _ => false
  | .setfld _ _ => true
  | .getfld _ => false
  | .clrfld => true
  | .getstat => false
  | .enchdrReq => false
  | .enchdrRsp => false
  | .dechdrReq => true
  | .dechdrRsp => true

/-- Whether bit `k` is a reserved bit of a layout (30_encoding.md R61, R62). -/
def isReserved (l : Layout) (k : Nat) : Bool :=
  decide ((layoutReserved l).1 ≤ k ∧ k < (layoutReserved l).1 + (layoutReserved l).2)

end Sys2Proof.Machine
end

