-- ==== Sys2Proof/Certificates/Slice0/Obligations.lean ====
section
/-! DEFINITION. The statements for the provers, one definition each, in the order of OBLIGATIONS.json. -/

open Sys2Proof Sys2Proof.Machine

/-- 10_state.md R33: every piece of the block's state after reset. -/
def Obligations.ResetLeavesEverythingZero : Prop :=
  (∀ i, i < 12 → State.reset.buf.read i = 0) ∧
  State.reset.fld = ⟨0, 0, 0, 0, 0⟩ ∧
  statusFaulted State.reset.status = false ∧ statusLast State.reset.status = 0 ∧
  State.reset.status.extractLsb' 3 4 = 0

/-- 70_reset_and_hazards.md R210: a reset gives every piece of state its reset value from any state; a command in
progress is abandoned without effect and without a response; the block is ready at once. The form of the
event is the model's [log 4]. -/
def Obligations.ResetEventRestoresResetValues : Prop :=
  ∀ (s : State) (inProgress : Option CommandWord) (es : List PortEvent), s.pending = .reset inProgress :: es →
    ∃ t, step s = .next t ∧ (∀ i, i < 12 → t.buf.read i = 0) ∧ t.fld = ⟨0, 0, 0, 0, 0⟩ ∧ t.status = 0 ∧
      t.response = none ∧
      ∀ w, execWord w { t with pending := [] } = execWord w State.reset

/-- The model's port [log 1]: when the word the host presents next decodes to a command, the step is that command's
exec, on the state with the word taken from the host's list. -/
def Obligations.StepRunsTheDecodedCommand : Prop :=
  ∀ (s : State) (w : CommandWord) (es : List PortEvent) (i : Instr), s.pending = .command w :: es →
    decode w = .ok i → i.wellFormed = true → step s = exec i { s with pending := es }

/-- The model's choice [log 3]: with nothing presented the step changes nothing and hands over no response. -/
def Obligations.IdleStepChangesNothing : Prop :=
  ∀ s : State, s.pending = [] → step s = .next { s with response := none }

/-- The model's port [log 1]: no command looks at or changes what the host has yet to present. -/
def Obligations.CommandsLeaveTheHostsListAlone : Prop :=
  ∀ (i : Instr) (s t : State) (es : List PortEvent), exec i s = .next t →
    t.pending = s.pending ∧ exec i { s with pending := es } = .next { t with pending := es }

/-- 00_scope.md section 6 (steps): a presented word ends with `respond(d)` or with `raise F`, in one step, and nothing
else. That the word is then gone from the host's list is the model's port, the model's choice [log 1]. -/
def Obligations.EveryWordIsAnsweredInOneStep : Prop :=
  ∀ (s : State) (w : CommandWord) (es : List PortEvent), s.pending = .command w :: es →
    ∃ t, step s = .next t ∧ t.pending = es ∧ ((∃ d, t.response = some ⟨0, d⟩) ∨ ∃ k, EndsFault s t k)

/-- The block's invariant, kept by every step from every state that has it: BUF in canonical form within its twelve
bytes, STATUS bits 6:3 zero, LAST 0 to 4, a fault code only with FAULTED set (10_state.md section 4; the canonical form
is the model's [log 5]). -/
def Obligations.EveryStepKeepsTheInvariant : Prop :=
  ∀ s t : State, s.Inv → step s = .next t → t.Inv

/-- The invariant holds right after reset (10_state.md section 6), whatever the host will present. That the reset BUF is
in canonical form concerns the model's own representation of BUF [log 5]. -/
def Obligations.ResetHasTheInvariant : Prop :=
  ∀ es : List PortEvent, State.Inv { State.reset with pending := es }

/-- 30_encoding.md section Part B: for an instance of any size, decoding the encoding of a command the instance has
gives the command, every operand at every value. -/
def Obligations.DecodeOfEncodeIsTheCommand : Prop :=
  ∀ (nbytes : Nat) (i : Instr), i.wellFormedFor nbytes = true → decodeFor nbytes (encode i) = .ok i

/-- 30_encoding.md section Part B: a word that decodes is the encoding of what it decodes to, so every bit of the word
is read. -/
def Obligations.EncodeOfDecodeIsTheWord : Prop :=
  ∀ (nbytes : Nat) (w : CommandWord) (i : Instr), decodeFor nbytes w = .ok i → encode i = w

/-- 30_encoding.md R79: every word either selects exactly one row, whose command it decodes to, or takes
IllegalCommand. -/
def Obligations.EveryWordSelectsOneRowOrIsIllegal : Prop :=
  ∀ (w : CommandWord) (s : State),
    (∃ r i, r ∈ opcodeTable ∧ r.selects w = true ∧ (∀ q ∈ opcodeTable, q.selects w = true → q = r) ∧
      decode w = .ok i ∧ i.row = r ∧ execWord w s = exec i s) ∨
    ((∀ r ∈ opcodeTable, r.selects w = false) ∧ ∃ t, execWord w s = .next t ∧ EndsFault s t .illegalCommand)

/-- 30_encoding.md R78: the 243 opcodes outside the map, the all-zero word among them, and the header opcodes of an
instance of another size. -/
def Obligations.OpcodesOutsideTheMapAreIllegal : Prop :=
  (∀ (w : CommandWord) (s : State),
    wordOp w ∉ [0x01, 0x02, 0x03, 0x04, 0x05, 0x08, 0x09, 0x0A, 0x0F, 0x10, 0x11, 0x12, 0x13] →
    ∃ t, execWord w s = .next t ∧ EndsFault s t .illegalCommand) ∧
  (∀ s : State, ∃ t, execWord 0 s = .next t ∧ EndsFault s t .illegalCommand) ∧
  (∀ (nbytes : Nat) (w : CommandWord), nbytes ≠ 12 → wordOp w ∈ [0x10, 0x11, 0x12, 0x13] →
    decodeFor nbytes w = .error (.illegalOpcode (wordOp w)))

/-- 60_exceptions.md R184: a word that selects no row takes IllegalCommand, and no command's word does. -/
def Obligations.WordsSelectingNoRowTakeIllegalCommand : Prop :=
  ∀ (w : CommandWord) (s t : State), execWord w s = .next t →
    (EndsFault s t .illegalCommand ↔ ∀ r ∈ opcodeTable, w &&& r.maskBits ≠ r.matchBits)

/-- A few of the words of 30_encoding.md section Part C (encoding examples), decoded. -/
def Obligations.ExampleWordsDecode : Prop :=
  decode 0x01000C100000ABCD = .ok (.wrfield 12 16 0xABCD) ∧
  decode 0x0200402000000000 = .ok (.rdfield 64 32) ∧
  decode 0x0300000000000000 = .ok .clrbuf ∧
  decode 0x04000300000000A0 = .ok (.putbyte 3 0xA0) ∧
  decode 0x05000B0000000000 = .ok (.getbyte 11) ∧
  decode 0x0800040000000005 = .ok (.setfld 4 5) ∧
  decode 0x0900020000000000 = .ok (.getfld 2) ∧
  decode 0x0A00000000000000 = .ok .clrfld ∧
  decode 0x0F00000000000000 = .ok .getstat ∧
  decode 0x1000000000000000 = .ok .enchdrReq ∧
  decode 0x1100000000000000 = .ok .enchdrRsp ∧
  decode 0x1200000000000000 = .ok .dechdrReq ∧
  decode 0x1300000000000000 = .ok .dechdrRsp

/-- 40_bitfield.md R90: WRFIELD. Its word has no must-be-zero field. The legal case writes value bit `off+len-1-k` to
every bit `k` of the field and nothing else; the three faults in their order. -/
def Obligations.WrfieldWritesItsBitsOrFaults : Prop :=
  WordRuns 0x01 (fun _ => true) (fun w => .wrfield (wordA w) (wordB w) (wordImm w)) ∧
  ∀ (s : State) (off : BitVec 16) (len : BitVec 8) (val : Word),
    (s.buf.wf = true → len.toNat ≤ 32 → off.toNat + len.toNat ≤ 96 → val.toNat < 2 ^ len.toNat →
      ∃ t, exec (.wrfield off len val) s = .next t ∧ EndsOk s t 0 ∧ t.fld = s.fld ∧
        ∀ k, t.buf.bit k =
          if off.toNat ≤ k ∧ k < off.toNat + len.toNat then val.getLsbD (off.toNat + len.toNat - 1 - k)
          else s.buf.bit k) ∧
    (32 < len.toNat → ∃ t, exec (.wrfield off len val) s = .next t ∧ EndsFault s t .lengthError) ∧
    (len.toNat ≤ 32 → 96 < off.toNat + len.toNat →
      ∃ t, exec (.wrfield off len val) s = .next t ∧ EndsFault s t .rangeError) ∧
    (len.toNat ≤ 32 → off.toNat + len.toNat ≤ 96 → 2 ^ len.toNat ≤ val.toNat →
      ∃ t, exec (.wrfield off len val) s = .next t ∧ EndsFault s t .valueError)

/-- 40_bitfield.md R91: RDFIELD. The result is the sum of `bit(off+i) * 2^(len-1-i)`, below `2^len`; the faults in
their order; a word with `imm` not zero is illegal. -/
def Obligations.RdfieldReadsItsBitsOrFaults : Prop :=
  WordRuns 0x02 (fun w => wordImm w == 0) (fun w => .rdfield (wordA w) (wordB w)) ∧
  ∀ (s : State) (off : BitVec 16) (len : BitVec 8),
    (len.toNat ≤ 32 → off.toNat + len.toNat ≤ 96 →
      ∃ t d, exec (.rdfield off len) s = .next t ∧ EndsOk s t d ∧ t.buf = s.buf ∧ t.fld = s.fld ∧
        d.toNat = ∑ i ∈ Finset.range len.toNat, (s.buf.bit (off.toNat + i)).toNat * 2 ^ (len.toNat - 1 - i) ∧
        d.toNat < 2 ^ len.toNat) ∧
    (32 < len.toNat → ∃ t, exec (.rdfield off len) s = .next t ∧ EndsFault s t .lengthError) ∧
    (len.toNat ≤ 32 → 96 < off.toNat + len.toNat →
      ∃ t, exec (.rdfield off len) s = .next t ∧ EndsFault s t .rangeError)

/-- 42_access.md R130: CLRBUF. -/
def Obligations.ClrbufZeroesEveryByte : Prop :=
  WordRuns 0x03 noOperands (fun _ => .clrbuf) ∧
  ∀ s : State, ∃ t, exec .clrbuf s = .next t ∧ EndsOk s t 0 ∧ (∀ i, t.buf.read i = 0) ∧ t.fld = s.fld

/-- 42_access.md R131: PUTBYTE, its faults in their order, and its agreement with `WRFIELD 8*idx, 8, byte`. -/
def Obligations.PutbyteStoresOneByteOrFaults : Prop :=
  WordRuns 0x04 (fun w => wordB w == 0) (fun w => .putbyte (wordA w) (wordImm w)) ∧
  ∀ (s : State) (idx : BitVec 16) (byte : Word),
    (s.buf.wf = true → idx.toNat < 12 → byte.toNat < 256 →
      ∃ t, exec (.putbyte idx byte) s = .next t ∧ EndsOk s t 0 ∧ t.fld = s.fld ∧
        (t.buf.read idx.toNat).toNat = byte.toNat ∧ ∀ j, j ≠ idx.toNat → t.buf.read j = s.buf.read j) ∧
    (12 ≤ idx.toNat → ∃ t, exec (.putbyte idx byte) s = .next t ∧ EndsFault s t .rangeError) ∧
    (idx.toNat < 12 → 256 ≤ byte.toNat →
      ∃ t, exec (.putbyte idx byte) s = .next t ∧ EndsFault s t .valueError) ∧
    (s.buf.wf = true → idx.toNat < 12 → exec (.putbyte idx byte) s = exec (.wrfield (8 * idx) 8 byte) s)

/-- 42_access.md R132: GETBYTE. -/
def Obligations.GetbyteReturnsOneByteOrFaults : Prop :=
  WordRuns 0x05 (fun w => wordB w == 0 && wordImm w == 0) (fun w => .getbyte (wordA w)) ∧
  ∀ (s : State) (idx : BitVec 16),
    (idx.toNat < 12 → ∃ t d, exec (.getbyte idx) s = .next t ∧ EndsOk s t d ∧
      d.toNat = (s.buf.read idx.toNat).toNat ∧ t.buf = s.buf ∧ t.fld = s.fld) ∧
    (12 ≤ idx.toNat → ∃ t, exec (.getbyte idx) s = .next t ∧ EndsFault s t .rangeError)

/-- 42_access.md R133: SETFLD writes the one register it names, with any 32-bit value. -/
def Obligations.SetfldWritesOneRegisterOrFaults : Prop :=
  WordRuns 0x08 (fun w => wordB w == 0) (fun w => .setfld (wordA w) (wordImm w)) ∧
  ∀ (s : State) (idx : BitVec 16) (val : Word),
    (idx.toNat < 5 → ∃ t, exec (.setfld idx val) s = .next t ∧ EndsOk s t 0 ∧ t.buf = s.buf ∧
      t.fld.get? idx.toNat = some val ∧ ∀ j, j ≠ idx.toNat → t.fld.get? j = s.fld.get? j) ∧
    (5 ≤ idx.toNat → ∃ t, exec (.setfld idx val) s = .next t ∧ EndsFault s t .rangeError)

/-- 42_access.md R134: GETFLD. -/
def Obligations.GetfldReturnsOneRegisterOrFaults : Prop :=
  WordRuns 0x09 (fun w => wordB w == 0 && wordImm w == 0) (fun w => .getfld (wordA w)) ∧
  ∀ (s : State) (idx : BitVec 16),
    (idx.toNat < 5 → ∃ t d, exec (.getfld idx) s = .next t ∧ EndsOk s t d ∧ t.buf = s.buf ∧ t.fld = s.fld ∧
      [s.fld.fld0, s.fld.fld1, s.fld.fld2, s.fld.fld3, s.fld.fld4][idx.toNat]? = some d) ∧
    (5 ≤ idx.toNat → ∃ t, exec (.getfld idx) s = .next t ∧ EndsFault s t .rangeError)

/-- 42_access.md R135: CLRFLD. -/
def Obligations.ClrfldZeroesEveryRegister : Prop :=
  WordRuns 0x0A noOperands (fun _ => .clrfld) ∧
  ∀ s : State, ∃ t, exec .clrfld s = .next t ∧ EndsOk s t 0 ∧ t.buf = s.buf ∧ t.fld = ⟨0, 0, 0, 0, 0⟩

/-- 42_access.md R136: GETSTAT hands over STATUS and changes no state at all. -/
def Obligations.GetstatReturnsStatusAndKeepsIt : Prop :=
  WordRuns 0x0F noOperands (fun _ => .getstat) ∧
  ∀ s : State, ∃ t d, exec .getstat s = .next t ∧ t.response = some ⟨0, d⟩ ∧
    t.buf = s.buf ∧ t.fld = s.fld ∧ t.status = s.status ∧
    d.getLsbD 7 = statusFaulted s.status ∧ d.extractLsb' 3 4 = 0 ∧ d.extractLsb' 0 3 = statusLast s.status ∧
    d.extractLsb' 8 24 = 0

/-- 41_header.md R111: ENCHDR.REQ, the twelve bytes written out; all-or-nothing. -/
def Obligations.EnchdrReqBuildsTheRequestHeader : Prop :=
  WordRuns 0x10 noOperands (fun _ => .enchdrReq) ∧
  ∀ s : State,
    (s.fld.fld0.toNat < 16 → s.fld.fld1.toNat < 256 → s.fld.fld3.toNat < 16 → s.fld.fld4.toNat < 268435456 →
      ∃ t, exec .enchdrReq s = .next t ∧ EndsOk s t 0 ∧ t.fld = s.fld ∧
        (t.buf.read 0).toNat = s.fld.fld0.toNat * 16 ∧ t.buf.read 1 = 0 ∧ t.buf.read 2 = 0 ∧
        (t.buf.read 3).toNat = s.fld.fld1.toNat ∧
        t.buf.read 4 = s.fld.fld2.extractLsb' 24 8 ∧ t.buf.read 5 = s.fld.fld2.extractLsb' 16 8 ∧
        t.buf.read 6 = s.fld.fld2.extractLsb' 8 8 ∧ t.buf.read 7 = s.fld.fld2.extractLsb' 0 8 ∧
        (t.buf.read 8).toNat = s.fld.fld3.toNat * 16 + (s.fld.fld4.extractLsb' 24 4).toNat ∧
        t.buf.read 9 = s.fld.fld4.extractLsb' 16 8 ∧ t.buf.read 10 = s.fld.fld4.extractLsb' 8 8 ∧
        t.buf.read 11 = s.fld.fld4.extractLsb' 0 8) ∧
    (16 ≤ s.fld.fld0.toNat ∨ 256 ≤ s.fld.fld1.toNat ∨ 16 ≤ s.fld.fld3.toNat ∨ 268435456 ≤ s.fld.fld4.toNat →
      ∃ t, exec .enchdrReq s = .next t ∧ EndsFault s t .valueError)

/-- 41_header.md R112: ENCHDR.RSP, the twelve bytes written out; all-or-nothing. -/
def Obligations.EnchdrRspBuildsTheResponseHeader : Prop :=
  WordRuns 0x11 noOperands (fun _ => .enchdrRsp) ∧
  ∀ s : State,
    (s.fld.fld0.toNat < 16 → s.fld.fld1.toNat < 256 → s.fld.fld2.toNat < 65536 →
      ∃ t, exec .enchdrRsp s = .next t ∧ EndsOk s t 0 ∧ t.fld = s.fld ∧
        (t.buf.read 0).toNat = s.fld.fld0.toNat * 16 + (s.fld.fld1.extractLsb' 4 4).toNat ∧
        (t.buf.read 1).toNat = (s.fld.fld1.extractLsb' 0 4).toNat * 16 + (s.fld.fld2.extractLsb' 12 4).toNat ∧
        t.buf.read 2 = s.fld.fld2.extractLsb' 4 8 ∧
        (t.buf.read 3).toNat = (s.fld.fld2.extractLsb' 0 4).toNat * 16 ∧
        t.buf.read 4 = s.fld.fld3.extractLsb' 24 8 ∧ t.buf.read 5 = s.fld.fld3.extractLsb' 16 8 ∧
        t.buf.read 6 = s.fld.fld3.extractLsb' 8 8 ∧ t.buf.read 7 = s.fld.fld3.extractLsb' 0 8 ∧
        t.buf.read 8 = s.fld.fld4.extractLsb' 24 8 ∧ t.buf.read 9 = s.fld.fld4.extractLsb' 16 8 ∧
        t.buf.read 10 = s.fld.fld4.extractLsb' 8 8 ∧ t.buf.read 11 = s.fld.fld4.extractLsb' 0 8) ∧
    (16 ≤ s.fld.fld0.toNat ∨ 256 ≤ s.fld.fld1.toNat ∨ 65536 ≤ s.fld.fld2.toNat →
      ∃ t, exec .enchdrRsp s = .next t ∧ EndsFault s t .valueError)

/-- 41_header.md R113: DECHDR.REQ, the five registers in terms of the bytes. -/
def Obligations.DechdrReqReadsTheRequestHeader : Prop :=
  WordRuns 0x12 noOperands (fun _ => .dechdrReq) ∧
  ∀ s : State, ∃ t, exec .dechdrReq s = .next t ∧ EndsOk s t 0 ∧ t.buf = s.buf ∧
    t.fld.fld0.toNat = (s.buf.read 0).toNat / 16 ∧
    t.fld.fld1.toNat = (s.buf.read 3).toNat ∧
    t.fld.fld2.toNat = (s.buf.read 4).toNat * 2 ^ 24 + (s.buf.read 5).toNat * 2 ^ 16 + (s.buf.read 6).toNat * 2 ^ 8 +
      (s.buf.read 7).toNat ∧
    t.fld.fld3.toNat = (s.buf.read 8).toNat / 16 ∧
    t.fld.fld4.toNat = (s.buf.read 8).toNat % 16 * 2 ^ 24 + (s.buf.read 9).toNat * 2 ^ 16 +
      (s.buf.read 10).toNat * 2 ^ 8 + (s.buf.read 11).toNat

/-- 41_header.md R114: DECHDR.RSP, the five registers in terms of the bytes. -/
def Obligations.DechdrRspReadsTheResponseHeader : Prop :=
  WordRuns 0x13 noOperands (fun _ => .dechdrRsp) ∧
  ∀ s : State, ∃ t, exec .dechdrRsp s = .next t ∧ EndsOk s t 0 ∧ t.buf = s.buf ∧
    t.fld.fld0.toNat = (s.buf.read 0).toNat / 16 ∧
    t.fld.fld1.toNat = (s.buf.read 0).toNat % 16 * 16 + (s.buf.read 1).toNat / 16 ∧
    t.fld.fld2.toNat = (s.buf.read 1).toNat % 16 * 2 ^ 12 + (s.buf.read 2).toNat * 2 ^ 4 + (s.buf.read 3).toNat / 16 ∧
    t.fld.fld3.toNat = (s.buf.read 4).toNat * 2 ^ 24 + (s.buf.read 5).toNat * 2 ^ 16 + (s.buf.read 6).toNat * 2 ^ 8 +
      (s.buf.read 7).toNat ∧
    t.fld.fld4.toNat = (s.buf.read 8).toNat * 2 ^ 24 + (s.buf.read 9).toNat * 2 ^ 16 + (s.buf.read 10).toNat * 2 ^ 8 +
      (s.buf.read 11).toNat

/-- 40_bitfield.md R92: a field reads back as it was written. -/
def Obligations.FieldReadsBackAsWritten : Prop :=
  ∀ (s : State) (off : BitVec 16) (len : BitVec 8) (val : Word), s.buf.wf = true → len.toNat ≤ 32 →
    off.toNat + len.toNat ≤ 96 → val.toNat < 2 ^ len.toNat →
    ∃ t u, exec (.wrfield off len val) s = .next t ∧ EndsOk s t 0 ∧ exec (.rdfield off len) t = .next u ∧
      u.response = some ⟨0, val⟩

/-- 40_bitfield.md R93: a successful WRFIELD leaves every bit and every byte outside its field, and every reading of a
disjoint field, as they were. -/
def Obligations.FieldWriteLeavesTheRestAlone : Prop :=
  ∀ (s t : State) (off : BitVec 16) (len : BitVec 8) (val : Word), s.buf.wf = true →
    exec (.wrfield off len val) s = .next t → EndsOk s t 0 →
    (∀ k, k < off.toNat ∨ off.toNat + len.toNat ≤ k → t.buf.bit k = s.buf.bit k) ∧
    (∀ i, 8 * i + 8 ≤ off.toNat ∨ off.toNat + len.toNat ≤ 8 * i → t.buf.read i = s.buf.read i) ∧
    (∀ (off2 : BitVec 16) (len2 : BitVec 8),
      off2.toNat + len2.toNat ≤ off.toNat ∨ off.toNat + len.toNat ≤ off2.toNat →
      ∃ u v r, exec (.rdfield off2 len2) s = .next u ∧ exec (.rdfield off2 len2) t = .next v ∧
        u.response = some r ∧ v.response = some r)

/-- 20_memory.md section 2 (the whole-buffer formulation, which the spec derives): bits and fields as digits of the
buffer read as one big-endian number. -/
def Obligations.FieldsAreDigitsOfTheWholeBuffer : Prop :=
  ∀ m : Memory,
    m.whole = ∑ i ∈ Finset.range 12, (m.read i).toNat * 256 ^ (11 - i) ∧
    (∀ k, k < 96 → (m.bit k).toNat = m.whole / 2 ^ (95 - k) % 2) ∧
    ∀ off len, off + len ≤ 96 → m.readField off len = m.whole / 2 ^ (96 - off - len) % 2 ^ len

/-- 40_bitfield.md section 4 (the whole-buffer form of WRFIELD, which the spec derives). -/
def Obligations.FieldWriteOnTheWholeBuffer : Prop :=
  ∀ (s : State) (off : BitVec 16) (len : BitVec 8) (val : Word), s.buf.wf = true → len.toNat ≤ 32 →
    off.toNat + len.toNat ≤ 96 → val.toNat < 2 ^ len.toNat →
    ∃ t, exec (.wrfield off len val) s = .next t ∧
      t.buf.whole = s.buf.whole
        - s.buf.whole / 2 ^ (96 - off.toNat - len.toNat) % 2 ^ len.toNat * 2 ^ (96 - off.toNat - len.toNat)
        + val.toNat * 2 ^ (96 - off.toNat - len.toNat)

/-- 40_bitfield.md R96: fields of length 0. -/
def Obligations.ZeroLengthFields : Prop :=
  ∀ (s : State) (off : BitVec 16) (val : Word),
    (off.toNat ≤ 96 → ∃ t, exec (.wrfield off 0 0) s = .next t ∧ EndsOk s t 0 ∧ t.buf = s.buf ∧ t.fld = s.fld) ∧
    (off.toNat ≤ 96 → 1 ≤ val.toNat → ∃ t, exec (.wrfield off 0 val) s = .next t ∧ EndsFault s t .valueError) ∧
    (96 < off.toNat → ∃ t, exec (.wrfield off 0 val) s = .next t ∧ EndsFault s t .rangeError) ∧
    (off.toNat ≤ 96 → ∃ t, exec (.rdfield off 0) s = .next t ∧ EndsOk s t 0 ∧ t.buf = s.buf ∧ t.fld = s.fld) ∧
    (96 < off.toNat → ∃ t, exec (.rdfield off 0) s = .next t ∧ EndsFault s t .rangeError)

/-- 40_bitfield.md section 3, consequences (b) and (c), which the spec derives: the later of two writes of one field
wins, and writes of disjoint fields commute. -/
def Obligations.OverlappingAndDisjointFieldWrites : Prop :=
  ∀ (s : State) (off1 off2 : BitVec 16) (len1 len2 : BitVec 8) (v1 v2 : Word) (t1 t12 t2 t21 : State),
    s.buf.wf = true →
    exec (.wrfield off1 len1 v1) s = .next t1 → EndsOk s t1 0 →
    exec (.wrfield off2 len2 v2) t1 = .next t12 → EndsOk t1 t12 0 →
    exec (.wrfield off2 len2 v2) s = .next t2 → EndsOk s t2 0 →
    exec (.wrfield off1 len1 v1) t2 = .next t21 → EndsOk t2 t21 0 →
    (off1 = off2 → len1 = len2 → t12 = t2) ∧
    (off1.toNat + len1.toNat ≤ off2.toNat ∨ off2.toNat + len2.toNat ≤ off1.toNat → t12 = t21)

/-- 40_bitfield.md section 3, consequence (e), which the spec derives: a field is its two parts, in reading and in
writing. -/
def Obligations.FieldIsItsTwoParts : Prop :=
  ∀ (s : State) (off : BitVec 16) (len1 len2 : BitVec 8) (val : Word), len1.toNat + len2.toNat ≤ 32 →
    off.toNat + len1.toNat + len2.toNat ≤ 96 →
    (∃ u u1 u2 d d1 d2, exec (.rdfield off (len1 + len2)) s = .next u ∧ u.response = some ⟨0, d⟩ ∧
      exec (.rdfield off len1) s = .next u1 ∧ u1.response = some ⟨0, d1⟩ ∧
      exec (.rdfield (off + len1.setWidth 16) len2) s = .next u2 ∧ u2.response = some ⟨0, d2⟩ ∧
      d.toNat = d1.toNat * 2 ^ len2.toNat + d2.toNat) ∧
    (s.buf.wf = true → val.toNat < 2 ^ (len1.toNat + len2.toNat) →
      ∃ t t1, exec (.wrfield off (len1 + len2) val) s = .next t ∧
        exec (.wrfield off len1 (BitVec.ofNat 32 (val.toNat / 2 ^ len2.toNat))) s = .next t1 ∧
        exec (.wrfield (off + len1.setWidth 16) len2 (BitVec.ofNat 32 (val.toNat % 2 ^ len2.toNat))) t1 = .next t)

/-- Consequences which the spec derives: RDFIELD, GETBYTE, GETFLD and GETSTAT read without side effect and may be
repeated freely (20_memory.md section 4, for RDFIELD also 40_bitfield.md section 3 (d); that none writes FLD is
42_access.md's frame table), and RDFIELD of the eight bits of a byte is GETBYTE (40_bitfield.md section 3 (f)). -/
def Obligations.ByteViewAgreesWithBitView : Prop :=
  (∀ (s t : State) (i : Instr), i = .getstat ∨ (∃ off len, i = .rdfield off len) ∨ (∃ idx, i = .getbyte idx) ∨
      (∃ idx, i = .getfld idx) → exec i s = .next t →
      t.buf = s.buf ∧ t.fld = s.fld ∧ ∃ u, exec i t = .next u ∧ (u.response = t.response)) ∧
  ∀ (s : State) (idx : BitVec 16), idx.toNat < 12 → exec (.rdfield (8 * idx) 8) s = exec (.getbyte idx) s

/-- 20_memory.md section 4 (idempotence, which the spec derives): a successful write issued twice leaves the same state
as once. For DECHDR, which that section does not name among the writes, it follows from 41_header.md section 3: DECHDR
leaves BUF, and BUF alone gives the registers. -/
def Obligations.RepeatedWritesAreIdempotent : Prop :=
  ∀ (i : Instr) (s t : State) (d : Word), s.buf.wf = true → (mayWriteBuf i || mayWriteFld i) = true →
    exec i s = .next t → t.response = some ⟨0, d⟩ → exec i t = .next t

/-- 41_header.md R115: the header round trip of both layouts. -/
def Obligations.HeaderRoundTrip : Prop :=
  (∀ s : State, s.fld.fld0.toNat < 16 → s.fld.fld1.toNat < 256 → s.fld.fld3.toNat < 16 →
    s.fld.fld4.toNat < 268435456 →
    ∃ t u, exec .enchdrReq s = .next t ∧ EndsOk s t 0 ∧ exec .dechdrReq t = .next u ∧ EndsOk t u 0 ∧ u.fld = s.fld) ∧
  (∀ s : State, s.fld.fld0.toNat < 16 → s.fld.fld1.toNat < 256 → s.fld.fld2.toNat < 65536 →
    ∃ t u, exec .enchdrRsp s = .next t ∧ EndsOk s t 0 ∧ exec .dechdrRsp t = .next u ∧ EndsOk t u 0 ∧ u.fld = s.fld)

/-- 41_header.md R116: the wrong layout gives no fault and other values, except that `version` and `timestamp`, and no
other field, sit at the same bits in both layouts. -/
def Obligations.WrongLayoutDecodesWithoutFault : Prop :=
  (∀ s : State, ∃ t u, exec .dechdrReq s = .next t ∧ EndsOk s t 0 ∧ exec .dechdrRsp s = .next u ∧ EndsOk s u 0 ∧
    t.fld.fld0 = u.fld.fld0 ∧ t.fld.fld2 = u.fld.fld3) ∧
  (∀ d e, d ∈ layoutFields .req → e ∈ layoutFields .rsp →
    (d.off = e.off ∧ d.len = e.len ↔ d.name = e.name ∧ (d.name = .version ∨ d.name = .timestamp))) ∧
  (∀ s t : State, s.buf = ⟨[(0, 0x90), (1, 0x10), (2, 0x02), (3, 0xA0), (7, 0x7B), (11, 0x05)]⟩ →
    exec .dechdrReq s = .next t → t.fld = ⟨9, 160, 123, 0, 5⟩) ∧
  (∀ s t : State, s.buf = ⟨[(0, 0x90), (7, 0x7B), (8, 0x40), (11, 0x0A)]⟩ →
    exec .dechdrRsp s = .next t → t.fld = ⟨9, 0, 0, 123, 1073741834⟩)

/-- 41_header.md section 4 (decode then encode, which the spec derives): both succeed, and BUF is as it was with the
layout's reserved bits cleared. -/
def Obligations.DecodeThenEncodeClearsReservedBits : Prop :=
  ∀ s : State, s.buf.wf = true →
    (∃ t u, exec .dechdrReq s = .next t ∧ exec .enchdrReq t = .next u ∧ EndsOk t u 0 ∧
      (∀ k, k < 96 → u.buf.bit k = (s.buf.bit k && !isReserved .req k)) ∧
      ((∀ k, isReserved .req k = true → s.buf.bit k = false) → u.buf = s.buf)) ∧
    (∃ t u, exec .dechdrRsp s = .next t ∧ exec .enchdrRsp t = .next u ∧ EndsOk t u 0 ∧
      (∀ k, k < 96 → u.buf.bit k = (s.buf.bit k && !isReserved .rsp k)) ∧
      ((∀ k, isReserved .rsp k = true → s.buf.bit k = false) → u.buf = s.buf))

/-- 41_header.md section 4 (equivalence with the bit-field commands, which the spec derives): ENCHDR is CLRBUF and the
five WRFIELDs in any order; DECHDR's registers are the data of the five RDFIELDs. -/
def Obligations.HeaderCommandsAreFieldCommands : Prop :=
  (∀ (l : Layout) (s t : State) (ps : List (FieldDesc × Word)), exec (enchdrOf l) s = .next t → EndsOk s t 0 →
    List.Perm ps ((layoutFields l).zip [s.fld.fld0, s.fld.fld1, s.fld.fld2, s.fld.fld3, s.fld.fld4]) →
    (issueAll (.clrbuf :: ps.map fun p =>
      .wrfield (BitVec.ofNat 16 p.1.off) (BitVec.ofNat 8 p.1.len) p.2) s).1.buf = t.buf) ∧
  (∀ (l : Layout) (s t : State) (i : Nat) (d : FieldDesc), exec (dechdrOf l) s = .next t →
    (layoutFields l)[i]? = some d →
    ∃ u v, exec (.rdfield (BitVec.ofNat 16 d.off) (BitVec.ofNat 8 d.len)) s = .next u ∧
      u.response = some ⟨0, v⟩ ∧ t.fld.get? i = some v)

/-- 30_encoding.md R64: the named fields and the reserved range of a layout cover bits 0 to 95 exactly once (the named
ones alone 76 and 92 bits); ENCHDR writes reserved bits as 0; DECHDR does not read them. -/
def Obligations.ReservedBitsAreZeroAndIgnored : Prop :=
  (∀ (l : Layout) (k : Nat), k < 96 →
    ((layoutFields l).filter fun d => decide (d.off ≤ k ∧ k < d.off + d.len)).length =
      if isReserved l k then 0 else 1) ∧
  ((layoutFields .req).map FieldDesc.len).sum = 76 ∧ ((layoutFields .rsp).map FieldDesc.len).sum = 92 ∧
  (∀ (l : Layout) (s t : State), exec (enchdrOf l) s = .next t → EndsOk s t 0 →
    ∀ k, isReserved l k = true → t.buf.bit k = false) ∧
  (∀ (l : Layout) (s1 s2 t1 t2 : State), (∀ k, k < 96 → isReserved l k = false → s1.buf.bit k = s2.buf.bit k) →
    exec (dechdrOf l) s1 = .next t1 → exec (dechdrOf l) s2 = .next t2 → t1.fld = t2.fld)

/-- 60_exceptions.md R181, R182, R183 and R185: a command faults exactly on the causes the rules name, reports the
first of them in the order LengthError, RangeError, ValueError, and otherwise responds with code 0; for a word,
IllegalCommand comes before all of these. -/
def Obligations.FaultsExactlyOnTheirCausesInOrder : Prop :=
  (∀ (i : Instr) (s : State), ∃ t, exec i s = .next t ∧
    match firstFault s.fld i with
    | some k => EndsFault s t k
    | none => ∃ d, t.response = some ⟨0, d⟩) ∧
  ∀ (w : CommandWord) (s : State), ∃ t, execWord w s = .next t ∧
    match decode w with
    | .error _ => EndsFault s t .illegalCommand
    | .ok i =>
      match firstFault s.fld i with
      | some k => EndsFault s t k
      | none => ∃ d, t.response = some ⟨0, d⟩

/-- 60_exceptions.md R186 and R187: whenever a word is answered with a fault code, BUF and FLD are as before, LAST is
the code, FAULTED is 1 and the data is 0. -/
def Obligations.AFaultChangesOnlyStatus : Prop :=
  ∀ (w : CommandWord) (s t : State) (r : Response), execWord w s = .next t → t.response = some r → r.code ≠ 0 →
    ∃ k, k.code = r.code ∧ EndsFault s t k

/-- 60_exceptions.md R188: the word after a faulting one is executed exactly as if the faulting one had never been
issued, except for STATUS; FAULTED stays 1. -/
def Obligations.AFaultDoesNotAffectTheNextCommand : Prop :=
  ∀ (w1 w2 : CommandWord) (s t : State) (k : FaultKind), execWord w1 s = .next t → EndsFault s t k →
    ∃ u v, execWord w2 t = .next u ∧ execWord w2 s = .next v ∧ u.buf = v.buf ∧ u.fld = v.fld ∧
      (decode w2 ≠ .ok .getstat → u.response = v.response) ∧ statusFaulted u.status = true

/-- 10_state.md R29: LAST records the outcome of every word but a successful GETSTAT, which leaves it. -/
def Obligations.LastRecordsTheOutcome : Prop :=
  ∀ (w : CommandWord) (s : State), ∃ t r, execWord w s = .next t ∧ t.response = some r ∧
    (decode w = .ok .getstat → r.code = 0 ∧ statusLast t.status = statusLast s.status) ∧
    (decode w ≠ .ok .getstat → statusLast t.status = r.code) ∧
    (wordOp w = 0x0F → noOperands w = false → statusLast t.status = 4)

/-- 10_state.md R30: FAULTED is set by every fault, cleared by no command and cleared by reset, and no command's
effect or response depends on STATUS, but for what GETSTAT reports. -/
def Obligations.FaultedIsStickyAndUnread : Prop :=
  (∀ (w : CommandWord) (s : State), ∃ t r, execWord w s = .next t ∧ t.response = some r ∧
    statusFaulted t.status = (statusFaulted s.status || r.code != 0)) ∧
  (∀ s : State, statusFaulted s.applyReset.status = false) ∧
  (∀ (w : CommandWord) (s : State) (st : BitVec 8), ∃ t u, execWord w s = .next t ∧
    execWord w { s with status := st } = .next u ∧ u.buf = t.buf ∧ u.fld = t.fld ∧
    (decode w ≠ .ok .getstat → u.response = t.response))

/-- 10_state.md section 4 (the use of FAULTED): FAULTED is 0 at the end of a run exactly when it was 0 at its start and
every word was answered with code 0. -/
def Obligations.NoFaultRecordedMeansEveryWordSucceeded : Prop :=
  ∀ (ws : List CommandWord) (s : State),
    (runWords ws s).1.noFaultRecorded = true ↔
      s.noFaultRecorded = true ∧ ∀ r ∈ (runWords ws s).2, ∃ d, r = some ⟨0, d⟩

/-- 42_access.md (the frame table, which the spec derives): which commands may change BUF and FLD at all,
and what WRFIELD, PUTBYTE and SETFLD leave. -/
def Obligations.OnlyTheNamedStateChanges : Prop :=
  ∀ (i : Instr) (s t : State), s.buf.wf = true → exec i s = .next t →
    (mayWriteBuf i = false → ∀ a, t.buf.read a = s.buf.read a) ∧
    (mayWriteFld i = false → t.fld = s.fld) ∧
    (∀ off len val, i = .wrfield off len val →
      ∀ k, k < off.toNat ∨ off.toNat + len.toNat ≤ k → t.buf.bit k = s.buf.bit k) ∧
    (∀ idx byte, i = .putbyte idx byte → ∀ a, a ≠ idx.toNat → t.buf.read a = s.buf.read a) ∧
    (∀ idx val, i = .setfld idx val → ∀ j, j ≠ idx.toNat → t.fld.get? j = s.fld.get? j)

/-- 70_reset_and_hazards.md section 2 (the sequence counter is wider than its field): a sequence number of 65536 or
more is never truncated; ENCHDR.RSP takes ValueError. -/
def Obligations.WideSequenceNumberIsRefused : Prop :=
  ∀ (s : State) (v : Word), 65536 ≤ v.toNat →
    ∃ t u, exec (.setfld 2 v) s = .next t ∧ EndsOk s t 0 ∧ exec .enchdrRsp t = .next u ∧ EndsFault t u .valueError

/-- 43_packet_layer.md R155: BUILDRSP, the packet byte for byte, or the block's ValueError. -/
def Obligations.BuildrspGivesHeaderAndPayload : Prop :=
  ∀ (version responseType sequenceNumber timestamp : Nat) (payload : List Byte) (s : State),
    (version < 16 → responseType < 256 → sequenceNumber < 65536 → timestamp < 2 ^ 32 → payload.length < 2 ^ 32 →
      (buildRsp version responseType sequenceNumber timestamp payload s).2 = .ok (
        [BitVec.ofNat 8 (version * 16 + responseType / 16),
         BitVec.ofNat 8 (responseType % 16 * 16 + sequenceNumber / 4096),
         BitVec.ofNat 8 (sequenceNumber / 16), BitVec.ofNat 8 (sequenceNumber % 16 * 16),
         BitVec.ofNat 8 (timestamp / 2 ^ 24), BitVec.ofNat 8 (timestamp / 2 ^ 16), BitVec.ofNat 8 (timestamp / 2 ^ 8),
         BitVec.ofNat 8 timestamp,
         BitVec.ofNat 8 (payload.length / 2 ^ 24), BitVec.ofNat 8 (payload.length / 2 ^ 16),
         BitVec.ofNat 8 (payload.length / 2 ^ 8), BitVec.ofNat 8 payload.length] ++ payload)) ∧
    (16 ≤ version ∨ 256 ≤ responseType ∨ 65536 ≤ sequenceNumber ∨ 2 ^ 32 ≤ timestamp ∨ 2 ^ 32 ≤ payload.length →
      (buildRsp version responseType sequenceNumber timestamp payload s).2 = .blockFault .valueError)

/-- 43_packet_layer.md section 2 (BUILDREQ), the packet byte for byte; `UnknownExtension` leaves the block untouched;
a value that does not fit ends in the block's ValueError. The comparison of extensions is the model's [log 10]. -/
def Obligations.BuildreqGivesHeaderAndName : Prop :=
  ∀ (version timestamp : Nat) (name : List CodeUnit) (ext : List Char) (s : State),
    (codeOf ext = none → buildReq version name ext timestamp s = (s, .unknownExtension)) ∧
    ∀ code, codeOf ext = some code →
      (version < 16 → timestamp < 2 ^ 32 → 2 * name.length < 2 ^ 28 →
        (buildReq version name ext timestamp s).2 = .ok (
          [BitVec.ofNat 8 (version * 16), 0, 0, 0,
           BitVec.ofNat 8 (timestamp / 2 ^ 24), BitVec.ofNat 8 (timestamp / 2 ^ 16),
           BitVec.ofNat 8 (timestamp / 2 ^ 8), BitVec.ofNat 8 timestamp,
           BitVec.ofNat 8 (code.toNat * 16 + 2 * name.length / 2 ^ 24), BitVec.ofNat 8 (2 * name.length / 2 ^ 16),
           BitVec.ofNat 8 (2 * name.length / 2 ^ 8), BitVec.ofNat 8 (2 * name.length)] ++ nameBytes name)) ∧
      (16 ≤ version ∨ 2 ^ 32 ≤ timestamp ∨ 2 ^ 28 ≤ 2 * name.length →
        (buildReq version name ext timestamp s).2 = .blockFault .valueError)

/-- 43_packet_layer.md R156: PARSERSP. -/
def Obligations.ParserspDecodesOrIsTruncated : Prop :=
  ∀ (bytes : List Byte) (s : State), s.buf.wf = true →
    (bytes.length < 12 → parseRsp bytes s = (s, .truncatedPacket)) ∧
    ∀ b0 b1 b2 b3 b4 b5 b6 b7 b8 b9 b10 b11 rest,
      bytes = b0 :: b1 :: b2 :: b3 :: b4 :: b5 :: b6 :: b7 :: b8 :: b9 :: b10 :: b11 :: rest →
      ∀ n, n = b8.toNat * 2 ^ 24 + b9.toNat * 2 ^ 16 + b10.toNat * 2 ^ 8 + b11.toNat →
      (rest.length < n → (parseRsp bytes s).2 = .truncatedPacket) ∧
      (n ≤ rest.length → (parseRsp bytes s).2 = .ok
        ⟨b0.toNat / 16, b0.toNat % 16 * 16 + b1.toNat / 16,
         b1.toNat % 16 * 2 ^ 12 + b2.toNat * 2 ^ 4 + b3.toNat / 16,
         b4.toNat * 2 ^ 24 + b5.toNat * 2 ^ 16 + b6.toNat * 2 ^ 8 + b7.toNat, n, rest.take n⟩)

/-- 43_packet_layer.md section 2 (PARSEREQ); an odd name length is refused, as 93_implementation_defined.md U11 says
[log 12]. -/
def Obligations.ParsereqDecodesOrIsTruncated : Prop :=
  ∀ (bytes : List Byte) (s : State), s.buf.wf = true →
    (bytes.length < 12 → parseReq bytes s = (s, .truncatedPacket)) ∧
    ∀ b0 b1 b2 b3 b4 b5 b6 b7 b8 b9 b10 b11 rest,
      bytes = b0 :: b1 :: b2 :: b3 :: b4 :: b5 :: b6 :: b7 :: b8 :: b9 :: b10 :: b11 :: rest →
      ∀ n, n = b8.toNat % 16 * 2 ^ 24 + b9.toNat * 2 ^ 16 + b10.toNat * 2 ^ 8 + b11.toNat →
      (rest.length < n → (parseReq bytes s).2 = .truncatedPacket) ∧
      (n ≤ rest.length → n % 2 = 1 → (parseReq bytes s).2 = .refused .oddNameLength) ∧
      (n ≤ rest.length → n % 2 = 0 → ∃ name, nameBytes name = rest.take n ∧ (parseReq bytes s).2 = .ok
        ⟨b0.toNat / 16, b3.toNat, b4.toNat * 2 ^ 24 + b5.toNat * 2 ^ 16 + b6.toNat * 2 ^ 8 + b7.toNat,
         b8.toNat / 16, name⟩)

/-- The round trips of the packet layer (43_packet_layer.md section 4). That the two sides may be any two instances in
any state is the model's inference from 10_state.md section 7 and 43_packet_layer.md section 5 [log 19]. -/
def Obligations.PacketRoundTrip : Prop :=
  (∀ (version timestamp : Nat) (name : List CodeUnit) (ext : List Char) (bytes : List Byte) (s s' : State),
    s'.buf.wf = true → (buildReq version name ext timestamp s).2 = .ok bytes →
    ∃ code, codeOf ext = some code ∧ (parseReq bytes s').2 = .ok ⟨version, 0, timestamp, code.toNat, name⟩) ∧
  (∀ (version responseType sequenceNumber timestamp : Nat) (payload bytes : List Byte) (s s' : State),
    s'.buf.wf = true → (buildRsp version responseType sequenceNumber timestamp payload s).2 = .ok bytes →
    (parseRsp bytes s').2 =
      .ok ⟨version, responseType, sequenceNumber, timestamp, payload.length, payload⟩)

/-- 43_packet_layer.md section 5 (independence of the expansions, which the spec derives): their results do not depend
on what FLD, BUF or STATUS held before. -/
def Obligations.ExpansionsDoNotDependOnOldState : Prop :=
  (∀ (l : Layout) (f0 f1 f2 f3 f4 : Nat) (s s' : State),
    (encodeHeaderMacro l [f0, f1, f2, f3, f4] s).2 = (encodeHeaderMacro l [f0, f1, f2, f3, f4] s').2) ∧
  (∀ (l : Layout) (h : List Byte) (s s' : State), h.length = 12 → s.buf.wf = true → s'.buf.wf = true →
    (decodeHeaderMacro l h s).2 = (decodeHeaderMacro l h s').2)

/-- 43_packet_layer.md section 1 (name encoding; two bytes per unit is general knowledge, [log 13]): an image name
survives its encoding, which has two bytes per unit, high byte first; an odd number of bytes is no name. -/
def Obligations.NameEncodingRoundTrip : Prop :=
  (∀ name : List CodeUnit, nameOf (nameBytes name) = some name ∧ (nameBytes name).length = 2 * name.length) ∧
  (∀ (name : List CodeUnit) (j : Nat) (u : CodeUnit), name[j]? = some u →
    (∃ hi lo, (nameBytes name)[2 * j]? = some hi ∧ (nameBytes name)[2 * j + 1]? = some lo ∧
      hi.toNat = u.toNat / 256 ∧ lo.toNat = u.toNat % 256)) ∧
  (∀ bytes : List Byte, nameOf bytes = none ↔ bytes.length % 2 = 1)

/-- 43_packet_layer.md section 1 (extension lookup): the extension a code stands for, in whatever letter case the free
value gives it [log 11], looks up to the code again; lookup does not depend on ASCII letter case [log 10]. That an
undefined code has no extension is no statement of that section, which leaves the result open: it is the refusal
93_implementation_defined.md U19 asks of a model [log 11]. -/
def Obligations.ExtensionLookupIgnoresLetterCase : Prop :=
  (∀ (code : BitVec 4) (name : List Char), extensionOf code = .ok name → codeOf name = some code) ∧
  (∀ code : BitVec 4, code ∈ [1, 2, 3, 4, 5, 15] ↔ ∃ name, extensionOf code = .ok name) ∧
  (∀ ext : List Char, codeOf (ext.map Char.toUpper) = codeOf ext ∧ codeOf (ext.map Char.toLower) = codeOf ext)

/-- 30_encoding.md section Part C (assembler syntax and its examples): lines of text to command words. -/
def Obligations.AssemblerExamples : Prop :=
  assembleLine "WRFIELD 12, 16, 0xABCD".toList = .command (.wrfield 12 16 0xABCD) none ∧
  encode (.wrfield 12 16 0xABCD) = 0x01000C100000ABCD ∧
  assembleLine "SETFLD RSP.payloadLength, 5 ; five bytes".toList = .command (.setfld 4 5) none ∧
  encode (.setfld 4 5) = 0x0800040000000005 ∧
  assembleLine "RDFIELD 90, 40 => LengthError".toList = .command (.rdfield 90 40) (some (.fault .lengthError)) ∧
  encode (.rdfield 90 40) = 0x02005A2800000000
end

