-- ==== Sys2Proof/Laws/State.lean ====
section
/-! SUPPORT. One lemma per field per update of State and of FieldFile, and the small lemmas of STATUS. -/

namespace Sys2Proof.Machine

@[simp] theorem State.setBuf_buf (s : State) (m : Memory) : (s.setBuf m).buf = m := rfl
@[simp] theorem State.setBuf_fld (s : State) (m : Memory) : (s.setBuf m).fld = s.fld := rfl
@[simp] theorem State.setBuf_status (s : State) (m : Memory) : (s.setBuf m).status = s.status := rfl
@[simp] theorem State.setBuf_pending (s : State) (m : Memory) : (s.setBuf m).pending = s.pending := rfl
@[simp] theorem State.setBuf_response (s : State) (m : Memory) : (s.setBuf m).response = s.response := rfl

@[simp] theorem State.setFld_buf (s : State) (f : FieldFile) : (s.setFld f).buf = s.buf := rfl
@[simp] theorem State.setFld_fld (s : State) (f : FieldFile) : (s.setFld f).fld = f := rfl
@[simp] theorem State.setFld_status (s : State) (f : FieldFile) : (s.setFld f).status = s.status := rfl
@[simp] theorem State.setFld_pending (s : State) (f : FieldFile) : (s.setFld f).pending = s.pending := rfl
@[simp] theorem State.setFld_response (s : State) (f : FieldFile) : (s.setFld f).response = s.response := rfl

@[simp] theorem State.respond_buf (s : State) (d : Word) : (s.respond d).buf = s.buf := rfl
@[simp] theorem State.respond_fld (s : State) (d : Word) : (s.respond d).fld = s.fld := rfl
@[simp] theorem State.respond_status (s : State) (d : Word) : (s.respond d).status = statusAfterOk s.status := rfl
@[simp] theorem State.respond_pending (s : State) (d : Word) : (s.respond d).pending = s.pending := rfl
@[simp] theorem State.respond_response (s : State) (d : Word) : (s.respond d).response = some ⟨0, d⟩ := rfl

@[simp] theorem State.respondKeepingLast_buf (s : State) (d : Word) : (s.respondKeepingLast d).buf = s.buf := rfl
@[simp] theorem State.respondKeepingLast_fld (s : State) (d : Word) : (s.respondKeepingLast d).fld = s.fld := rfl
@[simp] theorem State.respondKeepingLast_status (s : State) (d : Word) : (s.respondKeepingLast d).status = s.status := rfl
@[simp] theorem State.respondKeepingLast_pending (s : State) (d : Word) : (s.respondKeepingLast d).pending = s.pending := rfl
@[simp] theorem State.respondKeepingLast_response (s : State) (d : Word) : (s.respondKeepingLast d).response = some ⟨0, d⟩ := rfl

@[simp] theorem State.raiseFault_buf (s : State) (k : FaultKind) : (s.raiseFault k).buf = s.buf := rfl
@[simp] theorem State.raiseFault_fld (s : State) (k : FaultKind) : (s.raiseFault k).fld = s.fld := rfl
@[simp] theorem State.raiseFault_status (s : State) (k : FaultKind) : (s.raiseFault k).status = statusAfterFault k := rfl
@[simp] theorem State.raiseFault_pending (s : State) (k : FaultKind) : (s.raiseFault k).pending = s.pending := rfl
@[simp] theorem State.raiseFault_response (s : State) (k : FaultKind) : (s.raiseFault k).response = some ⟨k.code, 0⟩ := rfl

@[simp] theorem State.applyReset_buf (s : State) : (s.applyReset).buf = ⟨[]⟩ := rfl
@[simp] theorem State.applyReset_fld (s : State) : (s.applyReset).fld = FieldFile.zero := rfl
@[simp] theorem State.applyReset_status (s : State) : (s.applyReset).status = 0 := rfl
@[simp] theorem State.applyReset_pending (s : State) : (s.applyReset).pending = s.pending := rfl
@[simp] theorem State.applyReset_response (s : State) : (s.applyReset).response = none := rfl

@[simp] theorem State.present_buf (s : State) (w : CommandWord) : (s.present w).buf = s.buf := rfl
@[simp] theorem State.present_fld (s : State) (w : CommandWord) : (s.present w).fld = s.fld := rfl
@[simp] theorem State.present_status (s : State) (w : CommandWord) : (s.present w).status = s.status := rfl
@[simp] theorem State.present_pending (s : State) (w : CommandWord) : (s.present w).pending = .command w :: s.pending := rfl
@[simp] theorem State.present_response (s : State) (w : CommandWord) : (s.present w).response = s.response := rfl

@[simp] theorem FieldFile.set_0_fld0 (f : FieldFile) (v : Word) : (f.set 0 v).fld0 = v := rfl
@[simp] theorem FieldFile.set_0_fld1 (f : FieldFile) (v : Word) : (f.set 0 v).fld1 = f.fld1 := rfl
@[simp] theorem FieldFile.set_0_fld2 (f : FieldFile) (v : Word) : (f.set 0 v).fld2 = f.fld2 := rfl
@[simp] theorem FieldFile.set_0_fld3 (f : FieldFile) (v : Word) : (f.set 0 v).fld3 = f.fld3 := rfl
@[simp] theorem FieldFile.set_0_fld4 (f : FieldFile) (v : Word) : (f.set 0 v).fld4 = f.fld4 := rfl
@[simp] theorem FieldFile.set_1_fld0 (f : FieldFile) (v : Word) : (f.set 1 v).fld0 = f.fld0 := rfl
@[simp] theorem FieldFile.set_1_fld1 (f : FieldFile) (v : Word) : (f.set 1 v).fld1 = v := rfl
@[simp] theorem FieldFile.set_1_fld2 (f : FieldFile) (v : Word) : (f.set 1 v).fld2 = f.fld2 := rfl
@[simp] theorem FieldFile.set_1_fld3 (f : FieldFile) (v : Word) : (f.set 1 v).fld3 = f.fld3 := rfl
@[simp] theorem FieldFile.set_1_fld4 (f : FieldFile) (v : Word) : (f.set 1 v).fld4 = f.fld4 := rfl
@[simp] theorem FieldFile.set_2_fld0 (f : FieldFile) (v : Word) : (f.set 2 v).fld0 = f.fld0 := rfl
@[simp] theorem FieldFile.set_2_fld1 (f : FieldFile) (v : Word) : (f.set 2 v).fld1 = f.fld1 := rfl
@[simp] theorem FieldFile.set_2_fld2 (f : FieldFile) (v : Word) : (f.set 2 v).fld2 = v := rfl
@[simp] theorem FieldFile.set_2_fld3 (f : FieldFile) (v : Word) : (f.set 2 v).fld3 = f.fld3 := rfl
@[simp] theorem FieldFile.set_2_fld4 (f : FieldFile) (v : Word) : (f.set 2 v).fld4 = f.fld4 := rfl
@[simp] theorem FieldFile.set_3_fld0 (f : FieldFile) (v : Word) : (f.set 3 v).fld0 = f.fld0 := rfl
@[simp] theorem FieldFile.set_3_fld1 (f : FieldFile) (v : Word) : (f.set 3 v).fld1 = f.fld1 := rfl
@[simp] theorem FieldFile.set_3_fld2 (f : FieldFile) (v : Word) : (f.set 3 v).fld2 = f.fld2 := rfl
@[simp] theorem FieldFile.set_3_fld3 (f : FieldFile) (v : Word) : (f.set 3 v).fld3 = v := rfl
@[simp] theorem FieldFile.set_3_fld4 (f : FieldFile) (v : Word) : (f.set 3 v).fld4 = f.fld4 := rfl
@[simp] theorem FieldFile.set_4_fld0 (f : FieldFile) (v : Word) : (f.set 4 v).fld0 = f.fld0 := rfl
@[simp] theorem FieldFile.set_4_fld1 (f : FieldFile) (v : Word) : (f.set 4 v).fld1 = f.fld1 := rfl
@[simp] theorem FieldFile.set_4_fld2 (f : FieldFile) (v : Word) : (f.set 4 v).fld2 = f.fld2 := rfl
@[simp] theorem FieldFile.set_4_fld3 (f : FieldFile) (v : Word) : (f.set 4 v).fld3 = f.fld3 := rfl
@[simp] theorem FieldFile.set_4_fld4 (f : FieldFile) (v : Word) : (f.set 4 v).fld4 = v := rfl

theorem State.setBuf_setFld_fld (s : State) (m : Memory) : (s.setBuf m).setFld s.fld = s.setBuf m := rfl

theorem State.setBuf_buf_setFld (s : State) (f : FieldFile) : (s.setBuf s.buf).setFld f = s.setFld f := rfl

/-- `FLD[i]` exists exactly for the five registers (R22). -/
theorem FieldFile.get?_eq_none_iff (f : FieldFile) (i : Nat) : f.get? i = none ↔ 5 ≤ i := by
  match i with
  | 0 | 1 | 2 | 3 | 4 => simp [FieldFile.get?]
  | n + 5 => simp [FieldFile.get?]

/-- A write changes the register it names and no other (R133). -/
theorem FieldFile.get?_set (f : FieldFile) (i j : Nat) (v : Word) (hi : i < 5) :
    (f.set i v).get? j = if j = i then some v else f.get? j := by
  obtain rfl | rfl | rfl | rfl | rfl : i = 0 ∨ i = 1 ∨ i = 2 ∨ i = 3 ∨ i = 4 := by omega
  all_goals
    match j with
    | 0 | 1 | 2 | 3 | 4 => simp [FieldFile.get?]
    | n + 5 => simp [FieldFile.get?]

@[simp] theorem statusFaulted_statusOf (b : Bool) (c : BitVec 3) : statusFaulted (statusOf b c) = b := by
  revert b c; decide

@[simp] theorem statusLast_statusOf (b : Bool) (c : BitVec 3) : statusLast (statusOf b c) = c := by
  revert b c; decide

@[simp] theorem statusRead_statusOf (b : Bool) (c : BitVec 3) : statusRead (statusOf b c) = statusOf b c := by
  simp [statusRead]

@[simp] theorem statusFaulted_afterOk (st : BitVec 8) : statusFaulted (statusAfterOk st) = statusFaulted st := by
  simp [statusAfterOk]

@[simp] theorem statusLast_afterOk (st : BitVec 8) : statusLast (statusAfterOk st) = 0 := by simp [statusAfterOk]

@[simp] theorem statusFaulted_afterFault (k : FaultKind) : statusFaulted (statusAfterFault k) = true := by
  simp [statusAfterFault]

@[simp] theorem statusLast_afterFault (k : FaultKind) : statusLast (statusAfterFault k) = k.code := by
  simp [statusAfterFault]

@[simp] theorem FaultKind.ofCode_code (k : FaultKind) : FaultKind.ofCode k.code = some k := by cases k <;> rfl

theorem FaultKind.code_ne_zero (k : FaultKind) : k.code ≠ 0 := by cases k <;> decide

end Sys2Proof.Machine
end

