-- ==== Sys2Proof/Laws/Memory.lean ====
section
/-! SUPPORT. BUF as canonical data: a read after a write, the canonical form is kept, equal reads mean equal data. -/

namespace Sys2Proof.Machine

theorem canonicalFrom_cons (lo i : Nat) (v : Byte) (cs : List Host.Cell) :
    Memory.canonicalFrom lo ((i, v) :: cs) = true ↔
      lo ≤ i ∧ i < Config.nbytes ∧ v ≠ Memory.unlisted ∧ Memory.canonicalFrom (i + 1) cs = true := by
  simp [Memory.canonicalFrom, and_assoc]

theorem canonicalFrom_mono {lo lo' : Nat} (h : lo' ≤ lo) :
    ∀ cs, Memory.canonicalFrom lo cs = true → Memory.canonicalFrom lo' cs = true
  | [], _ => rfl
  | (i, v) :: cs, hc => by
    rw [canonicalFrom_cons] at hc ⊢
    exact ⟨by omega, hc.2⟩

theorem readCells_below {lo : Nat} : ∀ (cs : List Host.Cell) (i : Nat), Memory.canonicalFrom lo cs = true → i < lo →
    readCells cs i = Memory.unlisted
  | [], _, _, _ => rfl
  | (j, w) :: cs, i, hc, hi => by
    rw [canonicalFrom_cons] at hc
    rw [readCells, if_neg (by omega)]
    exact readCells_below cs i hc.2.2.2 (by omega)

theorem readCells_consCell {lo : Nat} (cs : List Host.Cell) (i j : Nat) (v : Byte)
    (hc : Memory.canonicalFrom lo cs = true) (hi : i < lo) :
    readCells (consCell i v cs) j = if j = i then v else readCells cs j := by
  unfold consCell
  split
  · next hv =>
    split
    · next hj => rw [hj, hv]; exact readCells_below cs i hc hi
    · rfl
  · rw [readCells]

theorem canonicalFrom_consCell {lo i : Nat} (cs : List Host.Cell) (v : Byte)
    (hc : Memory.canonicalFrom (i + 1) cs = true) (hlo : lo ≤ i) (hi : i < Config.nbytes) :
    Memory.canonicalFrom lo (consCell i v cs) = true := by
  unfold consCell
  split
  · exact canonicalFrom_mono (by omega) cs hc
  · next hv => rw [canonicalFrom_cons]; exact ⟨hlo, hi, hv, hc⟩

theorem readCells_writeCells {lo : Nat} : ∀ (cs : List Host.Cell) (i j : Nat) (v : Byte),
    Memory.canonicalFrom lo cs = true →
    readCells (writeCells cs i v) j = if j = i then v else readCells cs j
  | [], i, j, v, _ => readCells_consCell (lo := i + 1) [] i j v rfl (by omega)
  | (k, w) :: cs, i, j, v, hc => by
    have hc' := (canonicalFrom_cons _ _ _ _).1 hc
    unfold writeCells
    split
    · next hik =>
      refine readCells_consCell (lo := i + 1) _ i j v ?_ (by omega)
      rw [canonicalFrom_cons]; exact ⟨by omega, hc'.2⟩
    · split
      · next hik =>
        rw [readCells_consCell (lo := k + 1) cs i j v hc'.2.2.2 (by omega), readCells]
        split
        · rfl
        · rw [if_neg (by omega)]
      · rw [readCells, readCells_writeCells cs i j v hc'.2.2.2, readCells]
        split
        · rw [if_neg (by omega)]
        · rfl

theorem canonicalFrom_writeCells : ∀ (lo : Nat) (cs : List Host.Cell) (i : Nat) (v : Byte),
    Memory.canonicalFrom lo cs = true → lo ≤ i → i < Config.nbytes →
    Memory.canonicalFrom lo (writeCells cs i v) = true
  | _, [], _, v, _, hlo, hi => canonicalFrom_consCell [] v rfl hlo hi
  | _, (k, w) :: cs, i, v, hc, hlo, hi => by
    have hc' := (canonicalFrom_cons _ _ _ _).1 hc
    unfold writeCells
    split
    · next hik =>
      refine canonicalFrom_consCell _ v ?_ hlo hi
      rw [canonicalFrom_cons]; exact ⟨by omega, hc'.2⟩
    · split
      · next hik => subst hik; exact canonicalFrom_consCell cs v hc'.2.2.2 hlo hi
      · rw [canonicalFrom_cons]
        exact ⟨hc'.1, hc'.2.1, hc'.2.2.1, canonicalFrom_writeCells (k + 1) cs i v hc'.2.2.2 (by omega) hi⟩

theorem cells_ext : ∀ (lo : Nat) (cs ds : List Host.Cell), Memory.canonicalFrom lo cs = true →
    Memory.canonicalFrom lo ds = true → (∀ i, readCells cs i = readCells ds i) → cs = ds
  | _, [], [], _, _, _ => rfl
  | _, [], (j, w) :: ds, _, hd, h => by
    have hd' := (canonicalFrom_cons _ _ _ _).1 hd
    have := h j
    simp only [readCells, if_pos] at this
    exact absurd this.symm hd'.2.2.1
  | _, (j, w) :: cs, [], hc, _, h => by
    have hc' := (canonicalFrom_cons _ _ _ _).1 hc
    have := h j
    simp only [readCells, if_pos] at this
    exact absurd this hc'.2.2.1
  | _, (i, v) :: cs, (j, w) :: ds, hc, hd, h => by
    have hc' := (canonicalFrom_cons _ _ _ _).1 hc
    have hd' := (canonicalFrom_cons _ _ _ _).1 hd
    have hij : i = j := by
      rcases Nat.lt_trichotomy i j with hlt | heq | hgt
      · have := h i
        rw [readCells, if_pos rfl, readCells, if_neg (by omega), readCells_below ds i hd'.2.2.2 (by omega)] at this
        exact absurd this hc'.2.2.1
      · exact heq
      · have := h j
        rw [readCells, if_neg (by omega), readCells_below cs j hc'.2.2.2 (by omega), readCells, if_pos rfl] at this
        exact absurd this.symm hd'.2.2.1
    subst hij
    have hvw : v = w := by simpa [readCells] using h i
    subst hvw
    have htail : cs = ds := cells_ext (i + 1) cs ds hc'.2.2.2 hd'.2.2.2 fun k => by
      by_cases hk : k = i
      · rw [hk, readCells_below cs i hc'.2.2.2 (by omega), readCells_below ds i hd'.2.2.2 (by omega)]
      · simpa [readCells, hk] using h k
    rw [htail]

/-- A read after a write: the byte written, and every other byte as it was. -/
theorem Memory.read_write (m : Memory) (i j : Nat) (v : Byte) (h : m.wf = true) :
    (m.write i v).read j = if j = i then v else m.read j := readCells_writeCells m.cells i j v h

/-- A write inside BUF keeps the canonical form. -/
theorem Memory.wf_write (m : Memory) (i : Nat) (v : Byte) (h : m.wf = true) (hi : i < Config.nbytes) :
    (m.write i v).wf = true := canonicalFrom_writeCells 0 m.cells i v h (Nat.zero_le i) hi

/-- Buffers in canonical form that read alike are equal. -/
theorem Memory.ext_of_read (m n : Memory) (hm : m.wf = true) (hn : n.wf = true) (h : ∀ i, m.read i = n.read i) :
    m = n := by
  obtain ⟨cs⟩ := m
  obtain ⟨ds⟩ := n
  exact congrArg Memory.mk (cells_ext 0 cs ds hm hn h)

@[simp] theorem Memory.read_cleared (i : Nat) : Memory.cleared.read i = 0 := rfl

@[simp] theorem Memory.wf_cleared : Memory.cleared.wf = true := rfl

theorem readCells_above : ∀ (lo : Nat) (cs : List Host.Cell) (i : Nat), Memory.canonicalFrom lo cs = true →
    Config.nbytes ≤ i → readCells cs i = Memory.unlisted
  | _, [], _, _, _ => rfl
  | _, (j, w) :: cs, i, hc, hi => by
    have hc' := (canonicalFrom_cons _ _ _ _).1 hc
    rw [readCells, if_neg (by omega)]
    exact readCells_above (j + 1) cs i hc'.2.2.2 hi

/-- Nothing is listed beyond BUF. -/
theorem Memory.read_above (m : Memory) (i : Nat) (h : m.wf = true) (hi : Config.nbytes ≤ i) : m.read i = 0 :=
  readCells_above 0 m.cells i h hi

/-- Buffers in canonical form whose twelve bytes agree are equal. -/
theorem Memory.ext_of_bytes (m n : Memory) (hm : m.wf = true) (hn : n.wf = true)
    (h : ∀ i, i < Config.nbytes → m.read i = n.read i) : m = n :=
  Memory.ext_of_read m n hm hn fun i => by
    by_cases hi : i < Config.nbytes
    · exact h i hi
    · rw [m.read_above i hm (by omega), n.read_above i hn (by omega)]

/-- `MemWrite` keeps the canonical form. -/
theorem Memory.wf_writeBytes (v : Nat) : ∀ (n i : Nat) (m : Memory), m.wf = true → i + n ≤ Config.nbytes →
    (m.writeBytes v n i).wf = true
  | 0, _, _, h, _ => h
  | n + 1, i, m, h, hi =>
    Memory.wf_writeBytes v n (i + 1) _ (m.wf_write i _ h (by omega)) (by omega)

end Sys2Proof.Machine
end

