-- ==== Sys2Proof/Laws/Codec.lean ====
section
/-! SUPPORT. The bit codec: which bit `setbit`, WRFIELD's loop and RDFIELD's loop touch or read. -/

namespace Sys2Proof.Machine

theorem byteSetBit_getLsbD (v : Byte) (j : Nat) (b : Bool) (i : Nat) (hj : j < 8) :
    (byteSetBit v j b).getLsbD i = if i = j then b else v.getLsbD i := by
  unfold byteSetBit
  by_cases hi : i < 8
  · cases b <;> by_cases h : i = j <;> simp [h, hi, hj] <;> omega
  · have hne : i ≠ j := by omega
    rw [if_neg hne, BitVec.getLsbD_of_ge _ _ (by omega), BitVec.getLsbD_of_ge _ _ (by omega)]

/-- `setbit(k, b)` sets bit `k` and no other (R10). -/
theorem Memory.bit_setBit (m : Memory) (k j : Nat) (b : Bool) (h : m.wf = true) :
    (m.setBit k b).bit j = if j = k then b else m.bit j := by
  unfold Memory.bit Memory.setBit
  rw [m.read_write _ _ _ h]
  by_cases hq : j / 8 = k / 8
  · rw [if_pos hq, byteSetBit_getLsbD _ _ _ _ (by omega), hq]
    by_cases hjk : j = k
    · rw [if_pos (by omega), if_pos hjk]
    · rw [if_neg (by omega), if_neg hjk]
  · rw [if_neg hq, if_neg (by rintro rfl; exact hq rfl)]

theorem Memory.wf_setBit (m : Memory) (k : Nat) (b : Bool) (h : m.wf = true) (hk : k < Config.bufBits) :
    (m.setBit k b).wf = true := by
  refine m.wf_write _ _ h ?_
  unfold Config.bufBits at hk
  omega

/-- WRFIELD's loop keeps the canonical form. -/
theorem Memory.wf_writeField (val : Nat) : ∀ (len off : Nat) (m : Memory), m.wf = true →
    off + len ≤ Config.bufBits → (m.writeField val off len).wf = true
  | 0, _, _, h, _ => h
  | len + 1, off, m, h, hb =>
    Memory.wf_writeField val len (off + 1) _ (m.wf_setBit off _ h (by omega)) (by omega)

/-- What WRFIELD's loop leaves in every bit: value bit `len-1-i` at index `off+i`, the rest as it was (R90, R93). -/
theorem Memory.bit_writeField (val k : Nat) : ∀ (len off : Nat) (m : Memory), m.wf = true →
    off + len ≤ Config.bufBits →
    (m.writeField val off len).bit k =
      if off ≤ k ∧ k < off + len then val.testBit (off + len - 1 - k) else m.bit k
  | 0, off, m, _, _ => by
    rw [if_neg (by omega)]
    rfl
  | len + 1, off, m, h, hb => by
    rw [Memory.writeField, Memory.bit_writeField val k len (off + 1) _ (m.wf_setBit off _ h (by omega)) (by omega),
      m.bit_setBit off k _ h]
    by_cases hk : k = off
    · subst hk
      rw [if_neg (by omega), if_pos rfl, if_pos (by omega)]
      congr 1
      omega
    · rw [if_neg hk]
      by_cases hin : off + 1 ≤ k ∧ k < off + 1 + len
      · rw [if_pos hin, if_pos (by omega)]
        congr 1
        omega
      · rw [if_neg hin, if_neg (by omega)]

theorem Memory.testBit_readFieldFrom (m : Memory) (j : Nat) : ∀ (len off v : Nat),
    (m.readFieldFrom len off v).testBit j =
      if j < len then m.bit (off + len - 1 - j) else v.testBit (j - len)
  | 0, off, v => by simp [Memory.readFieldFrom]
  | len + 1, off, v => by
    rw [Memory.readFieldFrom, Memory.testBit_readFieldFrom m j len (off + 1)]
    by_cases h1 : j < len
    · rw [if_pos h1, if_pos (by omega)]
      congr 1
      omega
    · rw [if_neg h1]
      by_cases h2 : j = len
      · subst h2
        rw [if_pos (by omega), Nat.sub_self, show off + (j + 1) - 1 - j = off by omega]
        cases m.bit off <;> simp [Nat.testBit_zero]
      · rw [if_neg (by omega), show j - len = (j - (len + 1)) + 1 by omega, Nat.testBit_succ]
        congr 1
        cases m.bit off <;> simp; omega

/-- Bit `j` of the value of a field is the bit of BUF at `off + len - 1 - j` (R91). -/
theorem Memory.testBit_readField (m : Memory) (off len j : Nat) :
    (m.readField off len).testBit j = (decide (j < len) && m.bit (off + len - 1 - j)) := by
  rw [Memory.readField, m.testBit_readFieldFrom]
  by_cases h : j < len <;> simp [h]

/-- The value of a field of `len` bits is below `2^len` (R91). -/
theorem Memory.readField_lt (m : Memory) (off len : Nat) : m.readField off len < 2 ^ len :=
  Nat.lt_pow_two_of_testBit _ fun j hj => by
    rw [m.testBit_readField, decide_eq_false (by omega), Bool.false_and]

/-- Reading a field depends on its own bits only. -/
theorem Memory.readField_congr (m n : Memory) (off len : Nat)
    (h : ∀ k, off ≤ k → k < off + len → m.bit k = n.bit k) : m.readField off len = n.readField off len :=
  Nat.eq_of_testBit_eq fun j => by
    rw [m.testBit_readField, n.testBit_readField]
    by_cases hj : j < len
    · rw [h _ (by omega) (by omega)]
    · simp [hj]

/-- Reading back what WRFIELD's loop wrote (the core of R92). -/
theorem Memory.readField_writeField (m : Memory) (val off len : Nat) (h : m.wf = true)
    (hb : off + len ≤ Config.bufBits) (hv : val < 2 ^ len) :
    (m.writeField val off len).readField off len = val :=
  Nat.eq_of_testBit_eq fun j => by
    rw [Memory.testBit_readField]
    by_cases hj : j < len
    · rw [Memory.bit_writeField val _ len off m h hb, if_pos (by omega)]
      simp only [hj, decide_true, Bool.true_and]
      congr 1
      omega
    · rw [Nat.testBit_lt_two_pow (lt_of_lt_of_le hv (Nat.pow_le_pow_right (by omega) (by omega)))]
      simp [hj]

theorem Memory.testBit_readBytesFrom (m : Memory) (j : Nat) : ∀ (n i acc : Nat),
    (m.readBytesFrom n i acc).testBit j =
      if j < 8 * n then m.bit (8 * (i + n) - 1 - j) else acc.testBit (j - 8 * n)
  | 0, i, acc => by simp [Memory.readBytesFrom]
  | n + 1, i, acc => by
    rw [Memory.readBytesFrom, Memory.testBit_readBytesFrom m j n (i + 1)]
    by_cases h1 : j < 8 * n
    · rw [if_pos h1, if_pos (by omega)]
      congr 1
      omega
    · rw [if_neg h1, show 256 * acc + (m.read i).toNat = 2 ^ 8 * acc + (m.read i).toNat by norm_num,
        Nat.testBit_two_pow_mul_add _ (m.read i).isLt]
      by_cases h2 : j < 8 * (n + 1)
      · rw [if_pos (by omega), if_pos h2, Memory.bit, BitVec.getLsbD]
        rw [show (8 * (i + (n + 1)) - 1 - j) / 8 = i by omega,
          show 7 - (8 * (i + (n + 1)) - 1 - j) % 8 = j - 8 * n by omega]
      · rw [if_neg (by omega), if_neg h2]
        congr 1

/-- Bit `BUFBITS-1-k` of W is bit `k` of the buffer (R43). -/
theorem Memory.testBit_whole (m : Memory) (j : Nat) :
    m.whole.testBit j = (decide (j < Config.bufBits) && m.bit (Config.bufBits - 1 - j)) := by
  rw [Memory.whole, Memory.readBytes, m.testBit_readBytesFrom]
  by_cases h : j < 8 * Config.nbytes <;> simp [h, Config.bufBits]

/-- Two buffers in canonical form with the same 96 bits are equal. -/
theorem Memory.ext_of_bits (m n : Memory) (hm : m.wf = true) (hn : n.wf = true)
    (h : ∀ k, k < Config.bufBits → m.bit k = n.bit k) : m = n :=
  m.ext_of_bytes n hm hn fun i hi => by
    refine BitVec.eq_of_getLsbD_eq fun j hj => ?_
    have := h (8 * i + (7 - j)) (by unfold Config.bufBits; omega)
    unfold Memory.bit at this
    rwa [show (8 * i + (7 - j)) / 8 = i by omega, show 7 - (8 * i + (7 - j)) % 8 = j by omega] at this

end Sys2Proof.Machine
end

