-- ==== Sys2Proof/Laws/Ends.lean ====
section
/-! SUPPORT. `respond` ends a command well, `raise F` ends it with fault F. -/

namespace Sys2Proof.Machine

theorem statusOf_reserved (b : Bool) (c : BitVec 3) : (statusOf b c).extractLsb' 3 4 = 0 := by revert b c; decide

/-- `respond(d)` from any state with the command's old STATUS is a good end (R10). -/
theorem endsOk_respond (s u : State) (d : Word) (h : u.status = s.status) : EndsOk s (u.respond d) d :=
  ⟨rfl, by simp, by simp [h], statusOf_reserved _ _⟩

/-- `raise F` is the end with fault F (R186). -/
theorem endsFault_raiseFault (s : State) (k : FaultKind) : EndsFault s (s.raiseFault k) k :=
  ⟨rfl, rfl, by simp, by simp, rfl⟩

end Sys2Proof.Machine
end

