-- ==== Sys2Proof/Laws/Header.lean ====
section
/-! SUPPORT. The header codec: when registers fit a layout, what DECHDR's loop leaves, and ENCHDR's canonical form. -/

namespace Sys2Proof.Machine

theorem valueFits_iff (len val : Nat) : valueFits len val = true ↔ val < 2 ^ len := by simp [valueFits]

/-- The checks of ENCHDR.REQ spelled out (R111). -/
theorem fieldsFit_req_iff (f : FieldFile) : fieldsFit .req f = true ↔
    f.fld0.toNat < 2 ^ 4 ∧ f.fld1.toNat < 2 ^ 8 ∧ f.fld3.toNat < 2 ^ 4 ∧ f.fld4.toNat < 2 ^ 28 := by
  have h := f.fld2.isLt
  simp only [fieldsFit, layoutFields, FieldFile.toList, List.zip_cons_cons, List.zip_nil_left, List.all_cons,
    List.all_nil, Bool.and_true, Bool.and_eq_true, valueFits_iff]
  tauto

/-- The checks of ENCHDR.RSP spelled out (R112). -/
theorem fieldsFit_rsp_iff (f : FieldFile) : fieldsFit .rsp f = true ↔
    f.fld0.toNat < 2 ^ 4 ∧ f.fld1.toNat < 2 ^ 8 ∧ f.fld2.toNat < 2 ^ 16 := by
  have h := f.fld3.isLt
  have h' := f.fld4.isLt
  simp only [fieldsFit, layoutFields, FieldFile.toList, List.zip_cons_cons, List.zip_nil_left, List.all_cons,
    List.all_nil, Bool.and_true, Bool.and_eq_true, valueFits_iff]
  tauto

/-- DECHDR.REQ as five field reads (R113). -/
theorem decodeHeaderFld_req (m : Memory) (f : FieldFile) : decodeHeaderFld .req m f =
    ⟨BitVec.ofNat 32 (m.readField 0 4), BitVec.ofNat 32 (m.readField 24 8), BitVec.ofNat 32 (m.readField 32 32),
     BitVec.ofNat 32 (m.readField 64 4), BitVec.ofNat 32 (m.readField 68 28)⟩ := rfl

/-- DECHDR.RSP as five field reads (R114). -/
theorem decodeHeaderFld_rsp (m : Memory) (f : FieldFile) : decodeHeaderFld .rsp m f =
    ⟨BitVec.ofNat 32 (m.readField 0 4), BitVec.ofNat 32 (m.readField 4 8), BitVec.ofNat 32 (m.readField 12 16),
     BitVec.ofNat 32 (m.readField 32 32), BitVec.ofNat 32 (m.readField 64 32)⟩ := rfl

/-- ENCHDR.REQ's buffer as five field writes into a cleared buffer (R111). -/
theorem encodeHeaderBuf_req (f : FieldFile) : encodeHeaderBuf .req f =
    ((((Memory.cleared.writeField f.fld0.toNat 0 4).writeField f.fld1.toNat 24 8).writeField f.fld2.toNat 32 32).writeField
      f.fld3.toNat 64 4).writeField f.fld4.toNat 68 28 := rfl

/-- ENCHDR.RSP's buffer as five field writes into a cleared buffer (R112). -/
theorem encodeHeaderBuf_rsp (f : FieldFile) : encodeHeaderBuf .rsp f =
    ((((Memory.cleared.writeField f.fld0.toNat 0 4).writeField f.fld1.toNat 4 8).writeField f.fld2.toNat 12 16).writeField
      f.fld3.toNat 32 32).writeField f.fld4.toNat 64 32 := rfl

theorem wf_writeHeaderFields : ∀ (ps : List (FieldDesc × Word)) (m : Memory), m.wf = true →
    (∀ p ∈ ps, p.1.off + p.1.len ≤ Config.bufBits) → (writeHeaderFields m ps).wf = true
  | [], _, h, _ => h
  | p :: ps, m, h, hb =>
    wf_writeHeaderFields ps _ (Memory.wf_writeField _ _ _ m h (hb p List.mem_cons_self))
      fun q hq => hb q (List.mem_cons_of_mem _ hq)

/-- Every field of a layout lies inside the 96 bits (R110). -/
theorem layoutFields_inside (l : Layout) (d : FieldDesc) (h : d ∈ layoutFields l) :
    d.off + d.len ≤ Config.bufBits ∧ d.len ≤ Config.maxLen := by
  revert d
  cases l <;> decide

/-- The header ENCHDR builds is in canonical form. -/
theorem wf_encodeHeaderBuf (l : Layout) (f : FieldFile) : (encodeHeaderBuf l f).wf = true :=
  wf_writeHeaderFields _ _ rfl fun p hp => (layoutFields_inside l p.1 (List.of_mem_zip hp).1).1

end Sys2Proof.Machine
end

