-- ==== Sys2Proof/Laws/Exec.lean ====
section
/-! SUPPORT. What a command and a step can do, said once: the operand checks, one inversion lemma for exec, and the
cases of a step. -/

namespace Sys2Proof.Machine

/-- A field address is accepted exactly when `len <= 32` and `off + len <= BUFBITS` (R48, R182, R183). -/
theorem fieldFault_eq_none_iff (off len : Nat) :
    fieldFault Config.nbytes off len = none ↔ len ≤ Config.maxLen ∧ off + len ≤ Config.bufBits := by
  unfold fieldFault Config.bufBits
  split
  · simp; omega
  · split <;> simp <;> omega

theorem fieldFault_lengthError_iff (off len : Nat) :
    fieldFault Config.nbytes off len = some .lengthError ↔ Config.maxLen < len := by
  unfold fieldFault
  split
  · simp; omega
  · split <;> simp <;> omega

theorem fieldFault_rangeError_iff (off len : Nat) :
    fieldFault Config.nbytes off len = some .rangeError ↔ len ≤ Config.maxLen ∧ Config.bufBits < off + len := by
  unfold fieldFault Config.bufBits
  split
  · simp; omega
  · split <;> simp <;> omega

/-- A field address faults with LengthError or RangeError only. -/
theorem fieldFault_ne_illegal {off len : Nat} {k : FaultKind} (h : fieldFault Config.nbytes off len = some k) :
    k ≠ .illegalCommand := by
  rintro rfl
  unfold fieldFault at h
  split at h
  · cases h
  · split at h <;> cases h

/-- A byte index faults with RangeError only. -/
theorem byteFault_eq_some {nbytes idx : Nat} {k : FaultKind} (h : byteFault nbytes idx = some k) :
    nbytes ≤ idx ∧ k = .rangeError := by
  unfold byteFault at h
  split at h
  · cases h
  · cases h; exact ⟨by omega, rfl⟩

theorem byteFault_eq_none_iff (nbytes idx : Nat) : byteFault nbytes idx = none ↔ idx < nbytes := by
  unfold byteFault
  split <;> simp <;> omega

/-- A register index faults with RangeError only. -/
theorem fldFault_eq_some {idx : Nat} {k : FaultKind} (h : fldFault idx = some k) : 5 ≤ idx ∧ k = .rangeError := by
  unfold fldFault at h
  split at h
  · cases h
  · next hn => cases h; exact ⟨by simpa [Config.nfld] using hn, rfl⟩

theorem fldFault_eq_none_iff (idx : Nat) : fldFault idx = none ↔ idx < 5 := by
  unfold fldFault Config.nfld
  split <;> simp <;> omega

/-- Everything ENCHDR can do: write the header its registers fit, or take ValueError (R111, R112). -/
theorem encodeHeader_cases (l : Layout) (s t : State) (h : s.encodeHeader l = t) :
    (fieldsFit l s.fld = true ∧ t = (s.setBuf (encodeHeaderBuf l s.fld)).respond 0) ∨
    (fieldsFit l s.fld = false ∧ t = s.raiseFault .valueError) := by
  subst h
  unfold State.encodeHeader
  cases hf : fieldsFit l s.fld
  · exact .inr ⟨rfl, rfl⟩
  · exact .inl ⟨rfl, rfl⟩

/-- Everything a command can do when it answers a next state: take a fault other than IllegalCommand; end with `respond`, having possibly
changed BUF (kept canonical) or FLD; or, GETSTAT, hand over STATUS. -/
theorem exec_cases (i : Instr) (s t : State) (h : exec i s = .next t) :
    (∃ k, k ≠ .illegalCommand ∧ t = s.raiseFault k) ∨
    (∃ m f d, t = ((s.setBuf m).setFld f).respond d ∧ (s.buf.wf = true → m.wf = true)) ∨
    (i = .getstat ∧ t = s.respondKeepingLast ((statusRead s.status).setWidth 32)) := by
  cases i with
  | wrfield off len val =>
    simp only [exec, execWrfield] at h
    split at h
    · next k hk => cases h; exact .inl ⟨k, fieldFault_ne_illegal hk, rfl⟩
    · next hn =>
      split at h
      · cases h
        exact .inr (.inl ⟨_, s.fld, 0, rfl, fun hw => Memory.wf_writeField _ _ _ _ hw ((fieldFault_eq_none_iff _ _).1 hn).2⟩)
      · cases h; exact .inl ⟨_, by decide, rfl⟩
  | rdfield off len =>
    simp only [exec, execRdfield] at h
    split at h
    · next k hk => cases h; exact .inl ⟨k, fieldFault_ne_illegal hk, rfl⟩
    · cases h; exact .inr (.inl ⟨s.buf, s.fld, _, rfl, id⟩)
  | clrbuf => cases h; exact .inr (.inl ⟨_, s.fld, 0, rfl, fun _ => rfl⟩)
  | putbyte idx byte =>
    simp only [exec, execPutbyte] at h
    split at h
    · next k hk => cases h; exact .inl ⟨k, by rw [(byteFault_eq_some hk).2]; decide, rfl⟩
    · next hn =>
      split at h
      · cases h
        exact .inr (.inl ⟨_, s.fld, 0, rfl, fun hw => s.buf.wf_write _ _ hw ((byteFault_eq_none_iff _ _).1 hn)⟩)
      · cases h; exact .inl ⟨_, by decide, rfl⟩
  | getbyte idx =>
    simp only [exec, execGetbyte] at h
    split at h
    · next k hk => cases h; exact .inl ⟨k, by rw [(byteFault_eq_some hk).2]; decide, rfl⟩
    · cases h; exact .inr (.inl ⟨s.buf, s.fld, _, rfl, id⟩)
  | setfld idx val =>
    simp only [exec, execSetfld] at h
    split at h
    · next k hk => cases h; exact .inl ⟨k, by rw [(fldFault_eq_some hk).2]; decide, rfl⟩
    · cases h; exact .inr (.inl ⟨s.buf, _, 0, rfl, id⟩)
  | getfld idx =>
    simp only [exec, execGetfld] at h
    split at h
    · cases h; exact .inr (.inl ⟨s.buf, s.fld, _, rfl, id⟩)
    · cases h; exact .inl ⟨_, by decide, rfl⟩
  | clrfld => cases h; exact .inr (.inl ⟨s.buf, _, 0, rfl, id⟩)
  | getstat => cases h; exact .inr (.inr ⟨rfl, rfl⟩)
  | enchdrReq =>
    simp only [exec, execEnchdrReq, Host.Outcome.next.injEq] at h
    obtain ⟨_, rfl⟩ | ⟨_, rfl⟩ := encodeHeader_cases .req s t h
    · exact .inr (.inl ⟨encodeHeaderBuf .req s.fld, s.fld, 0, by rw [State.setBuf_setFld_fld], fun _ => wf_encodeHeaderBuf _ _⟩)
    · exact .inl ⟨_, by decide, rfl⟩
  | enchdrRsp =>
    simp only [exec, execEnchdrRsp, Host.Outcome.next.injEq] at h
    obtain ⟨_, rfl⟩ | ⟨_, rfl⟩ := encodeHeader_cases .rsp s t h
    · exact .inr (.inl ⟨encodeHeaderBuf .rsp s.fld, s.fld, 0, by rw [State.setBuf_setFld_fld], fun _ => wf_encodeHeaderBuf _ _⟩)
    · exact .inl ⟨_, by decide, rfl⟩
  | dechdrReq =>
    simp only [exec, execDechdrReq, Host.Outcome.next.injEq] at h
    subst h
    exact .inr (.inl ⟨s.buf, decodeHeaderFld .req s.buf s.fld, 0, rfl, id⟩)
  | dechdrRsp =>
    simp only [exec, execDechdrRsp, Host.Outcome.next.injEq] at h
    subst h
    exact .inr (.inl ⟨s.buf, decodeHeaderFld .rsp s.buf s.fld, 0, rfl, id⟩)

/-- Everything a presented word can do: what its command does, or IllegalCommand. -/
theorem execWord_cases (w : CommandWord) (s : State) :
    (∃ i, decode w = .ok i ∧ execWord w s = exec i s) ∨
    (∃ e, decode w = .error e ∧ execWord w s = .next (s.raiseFault .illegalCommand)) := by
  unfold execWord
  cases h : decode w with
  | ok i => exact .inl ⟨i, rfl, rfl⟩
  | error e => exact .inr ⟨e, rfl, rfl⟩

/-- Everything a step can do: idle, reset, or answer the next word. -/
theorem step_cases (s : State) :
    (s.pending = [] ∧ step s = .next { s with response := none }) ∨
    (∃ w es, s.pending = .command w :: es ∧ step s = execWord w { s with pending := es }) ∨
    (∃ o es, s.pending = .reset o :: es ∧
      step s = .next (State.applyReset { s with pending := es })) := by
  obtain ⟨buf, fld, status, pending, response⟩ := s
  cases pending with
  | nil => exact .inl ⟨rfl, rfl⟩
  | cons e es =>
    cases e with
    | command w => exact .inr (.inl ⟨w, es, rfl, rfl⟩)
    | reset o => exact .inr (.inr ⟨o, es, rfl, rfl⟩)

/-- A presented word is the one the next step answers. -/
theorem step_present (w : CommandWord) (s : State) : step (s.present w) = execWord w s := rfl

end Sys2Proof.Machine
end

