-- ==== Sys2Proof/Laws/Packet.lean ====
section
/-! SUPPORT. The host's side of the port: what issuing a word, and one command of a sequence, can do. -/

namespace Sys2Proof.Machine

@[simp] theorem PacketResult.map_ok {α β : Type} (f : α → β) (a : α) : (PacketResult.ok a).map f = .ok (f a) := rfl
@[simp] theorem PacketResult.map_unknownExtension {α β : Type} (f : α → β) :
    PacketResult.unknownExtension.map f = .unknownExtension := rfl
@[simp] theorem PacketResult.map_truncatedPacket {α β : Type} (f : α → β) :
    PacketResult.truncatedPacket.map f = .truncatedPacket := rfl
@[simp] theorem PacketResult.map_blockFault {α β : Type} (f : α → β) (k : FaultKind) :
    (PacketResult.blockFault k).map f = .blockFault k := rfl
@[simp] theorem PacketResult.map_refused {α β : Type} (f : α → β) (r : Refusal) :
    (PacketResult.refused r).map f = .refused r := rfl

theorem PacketResult.map_map {α β γ : Type} (r : PacketResult α) (f : α → β) (g : β → γ) :
    (r.map f).map g = r.map fun a => g (f a) := by cases r <;> rfl

@[simp] theorem PacketResult.andThen_ok {α β : Type} (a : α) (f : α → PacketResult β) :
    (PacketResult.ok a).andThen f = f a := rfl
@[simp] theorem PacketResult.andThen_blockFault {α β : Type} (k : FaultKind) (f : α → PacketResult β) :
    (PacketResult.blockFault k).andThen f = .blockFault k := rfl

/-- Issuing a word is executing it; the response is the one the state after it holds. -/
theorem issueWord_eq (w : CommandWord) (s t : State) (h : execWord w s = .next t) :
    issueWord w s = (t, t.response) := by
  unfold issueWord
  rw [step_present, h]

/-- The word of a command that decodes to it runs the command. -/
theorem issueWord_encode (i : Instr) (s t : State) (hd : decode (encode i) = .ok i) (h : exec i s = .next t) :
    issueWord (encode i) s = (t, t.response) := by
  refine issueWord_eq _ s t ?_
  unfold execWord
  rw [hd, ← h]

/-- A sequence whose first command succeeds goes on after it. -/
theorem issueAll_cons_ok (i : Instr) (is : List Instr) (s t : State) (d : Word) (hd : decode (encode i) = .ok i)
    (h : exec i s = .next t) (hr : t.response = some ⟨0, d⟩) :
    issueAll (i :: is) s = ((issueAll is t).1, (issueAll is t).2.map (d :: ·)) := by
  rw [issueAll, issueWord_encode i s t hd h, hr]
  rfl

/-- A sequence whose first command faults ends with the fault. -/
theorem issueAll_cons_fault (i : Instr) (is : List Instr) (s t : State) (k : FaultKind)
    (hd : decode (encode i) = .ok i) (h : exec i s = .next t) (hr : t.response = some ⟨k.code, 0⟩) :
    issueAll (i :: is) s = (t, .blockFault k) := by
  rw [issueAll, issueWord_encode i s t hd h, hr]
  simp

end Sys2Proof.Machine
end

