-- ==== Sys2Proof/Laws/PerInstr.lean ====
section
/-! SUPPORT. The fields of a command's word, and per-instruction facts about the opcode table: the word of a command
selects its own row (30_encoding.md R74, R76). -/

namespace Sys2Proof

/-- Where the bits of a command word come from (R74). -/
theorem formatC_getLsbD (op : BitVec 8) (a : BitVec 16) (b : BitVec 8) (imm : Word) (k : Nat) :
    (formatC op a b imm).getLsbD k =
      if k < 32 then imm.getLsbD k else if k < 40 then b.getLsbD (k - 32)
      else if k < 56 then a.getLsbD (k - 40) else op.getLsbD (k - 56) := by
  change (op ++ a ++ b ++ imm : BitVec (8 + 16 + 8 + 32)).getLsbD k = _
  rw [BitVec.getLsbD_append, BitVec.getLsbD_append, BitVec.getLsbD_append]
  by_cases h1 : k < 32
  · rw [if_pos h1, if_pos h1]
  · rw [if_neg h1, if_neg h1]
    by_cases h2 : k < 40
    · rw [if_pos (by omega), if_pos h2]
    · rw [if_neg (by omega), if_neg h2]
      by_cases h3 : k < 56
      · rw [if_pos (by omega), if_pos h3]
        congr 1
      · rw [if_neg (by omega), if_neg h3]
        congr 1

@[simp] theorem wordOp_formatC (op : BitVec 8) (a : BitVec 16) (b : BitVec 8) (imm : Word) :
    wordOp (formatC op a b imm) = op := by
  refine BitVec.eq_of_getLsbD_eq fun i hi => ?_
  rw [wordOp, BitVec.getLsbD_extractLsb', formatC_getLsbD, if_neg (by omega), if_neg (by omega), if_neg (by omega),
    Nat.add_sub_cancel_left]
  simp [hi]

@[simp] theorem wordA_formatC (op : BitVec 8) (a : BitVec 16) (b : BitVec 8) (imm : Word) :
    wordA (formatC op a b imm) = a := by
  refine BitVec.eq_of_getLsbD_eq fun i hi => ?_
  rw [wordA, BitVec.getLsbD_extractLsb', formatC_getLsbD, if_neg (by omega), if_neg (by omega), if_pos (by omega),
    Nat.add_sub_cancel_left]
  simp [hi]

@[simp] theorem wordB_formatC (op : BitVec 8) (a : BitVec 16) (b : BitVec 8) (imm : Word) :
    wordB (formatC op a b imm) = b := by
  refine BitVec.eq_of_getLsbD_eq fun i hi => ?_
  rw [wordB, BitVec.getLsbD_extractLsb', formatC_getLsbD, if_neg (by omega), if_pos (by omega),
    Nat.add_sub_cancel_left]
  simp [hi]

@[simp] theorem wordImm_formatC (op : BitVec 8) (a : BitVec 16) (b : BitVec 8) (imm : Word) :
    wordImm (formatC op a b imm) = imm := by
  refine BitVec.eq_of_getLsbD_eq fun i hi => ?_
  rw [wordImm, BitVec.getLsbD_extractLsb', formatC_getLsbD, if_pos (by omega), Nat.zero_add]
  simp [hi]

/-- A word is the format C of its own fields (R74). -/
theorem formatC_fields (w : CommandWord) : formatC (wordOp w) (wordA w) (wordB w) (wordImm w) = w := by
  refine BitVec.eq_of_getLsbD_eq fun i hi => ?_
  rw [formatC_getLsbD]
  simp only [wordOp, wordA, wordB, wordImm, BitVec.getLsbD_extractLsb']
  by_cases h1 : i < 32
  · simp [h1]
  · by_cases h2 : i < 40
    · rw [if_neg h1, if_pos h2, show 32 + (i - 32) = i by omega]
      simp; omega
    · by_cases h3 : i < 56
      · rw [if_neg h1, if_neg h2, if_pos h3, show 40 + (i - 40) = i by omega]
        simp; omega
      · rw [if_neg h1, if_neg h2, if_neg h3, show 56 + (i - 56) = i by omega]
        simp; omega

/-- A mask that keeps `op` and the fields `ma`, `mb`, `mi` of a word in format C. -/
theorem formatC_and (op op' : BitVec 8) (a a' : BitVec 16) (b b' : BitVec 8) (imm imm' : Word) :
    formatC op a b imm &&& formatC op' a' b' imm' =
      formatC (op &&& op') (a &&& a') (b &&& b') (imm &&& imm') := by
  refine BitVec.eq_of_getLsbD_eq fun i hi => ?_
  simp only [BitVec.getLsbD_and, formatC_getLsbD]
  split
  · rfl
  · split
    · rfl
    · split <;> rfl

/-- One step along the opcode map: the first opcode that matches decides. -/
theorem ite_eq_cases {α : Type} {c : Prop} [Decidable c] {x y z : α} (h : (if c then x else y) = z) :
    (c ∧ x = z) ∨ (¬c ∧ y = z) := by
  by_cases hc : c
  · rw [if_pos hc] at h; exact .inl ⟨hc, h⟩
  · rw [if_neg hc] at h; exact .inr ⟨hc, h⟩

/-- A must-be-zero check that passes (R77). -/
theorem requireZero_eq_ok {ok : Bool} {op : BitVec 8} {i j : Instr} (h : requireZero ok op i = .ok j) :
    ok = true ∧ i = j := by
  unfold requireZero at h
  split at h
  · next hb => cases h; exact ⟨hb, rfl⟩
  · cases h

end Sys2Proof

namespace Sys2Proof.Laws

/-- The word of a command selects the command's own row of the opcode table, whatever its operands (R76). -/
def EncodeSelectsRow.Statement (i : Instr) : Prop := i.row.selects (encode i) = true

theorem EncodeSelectsRow.wrfield (off : BitVec 16) (len : BitVec 8) (val : Word) : EncodeSelectsRow.Statement (.wrfield off len val) := by
  change (formatC 0x01 off len val &&& formatC 0xFF 0 0 0 == _) = true
  rw [formatC_and]
  simp only [BitVec.ofNat_eq_ofNat, BitVec.and_zero]
  rfl

theorem EncodeSelectsRow.rdfield (off : BitVec 16) (len : BitVec 8) : EncodeSelectsRow.Statement (.rdfield off len) := by
  change (formatC 0x02 off len 0 &&& formatC 0xFF 0 0 0xFFFFFFFF == _) = true
  rw [formatC_and]
  simp only [BitVec.ofNat_eq_ofNat, BitVec.and_zero]
  rfl

theorem EncodeSelectsRow.clrbuf : EncodeSelectsRow.Statement .clrbuf := by unfold EncodeSelectsRow.Statement; decide

theorem EncodeSelectsRow.putbyte (idx : BitVec 16) (byte : Word) : EncodeSelectsRow.Statement (.putbyte idx byte) := by
  change (formatC 0x04 idx 0 byte &&& formatC 0xFF 0 0xFF 0 == _) = true
  rw [formatC_and]
  simp only [BitVec.ofNat_eq_ofNat, BitVec.and_zero]
  rfl

theorem EncodeSelectsRow.getbyte (idx : BitVec 16) : EncodeSelectsRow.Statement (.getbyte idx) := by
  change (formatC 0x05 idx 0 0 &&& formatC 0xFF 0 0xFF 0xFFFFFFFF == _) = true
  rw [formatC_and]
  simp only [BitVec.ofNat_eq_ofNat, BitVec.and_zero]
  rfl

theorem EncodeSelectsRow.setfld (idx : BitVec 16) (val : Word) : EncodeSelectsRow.Statement (.setfld idx val) := by
  change (formatC 0x08 idx 0 val &&& formatC 0xFF 0 0xFF 0 == _) = true
  rw [formatC_and]
  simp only [BitVec.ofNat_eq_ofNat, BitVec.and_zero]
  rfl

theorem EncodeSelectsRow.getfld (idx : BitVec 16) : EncodeSelectsRow.Statement (.getfld idx) := by
  change (formatC 0x09 idx 0 0 &&& formatC 0xFF 0 0xFF 0xFFFFFFFF == _) = true
  rw [formatC_and]
  simp only [BitVec.ofNat_eq_ofNat, BitVec.and_zero]
  rfl

theorem EncodeSelectsRow.clrfld : EncodeSelectsRow.Statement .clrfld := by unfold EncodeSelectsRow.Statement; decide

theorem EncodeSelectsRow.getstat : EncodeSelectsRow.Statement .getstat := by unfold EncodeSelectsRow.Statement; decide

theorem EncodeSelectsRow.enchdrReq : EncodeSelectsRow.Statement .enchdrReq := by unfold EncodeSelectsRow.Statement; decide

theorem EncodeSelectsRow.enchdrRsp : EncodeSelectsRow.Statement .enchdrRsp := by unfold EncodeSelectsRow.Statement; decide

theorem EncodeSelectsRow.dechdrReq : EncodeSelectsRow.Statement .dechdrReq := by unfold EncodeSelectsRow.Statement; decide

theorem EncodeSelectsRow.dechdrRsp : EncodeSelectsRow.Statement .dechdrRsp := by unfold EncodeSelectsRow.Statement; decide

end Sys2Proof.Laws
end

