-- ==== Sys2Proof/Tests/Slice0.lean ====
section
/-! SUPPORT. The model's own tests. Expected values are those of spec/95_test_vectors.md (the section and row named
beside each) or of the rule named; none is an answer of the model. Then one witness for each statement that has
hypotheses: states and operands that meet them, one for each clause, at the boundary of its range. -/

namespace Sys2Proof.Tests

open Sys2Proof Sys2Proof.Machine

/-- The buffer of the given bytes, BUF[0] first. -/
def memOf (bs : List Byte) : Memory := ⟨(bs.zipIdx.filter fun p => p.1 != 0).map fun p => (p.2, p.1)⟩

/-- A state with the given bytes, registers and STATUS. -/
def stateOf (bs : List Byte) (f : FieldFile) (st : BitVec 8) : State := ⟨memOf bs, f, st, [], none⟩

/-- The FF buffer of 95 section 2. -/
def ffState : State := stateOf (List.replicate 12 0xFF) FieldFile.zero 0

/-- The bytes 10 to 1B of 95 section 2.2. -/
def rampState : State :=
  stateOf [0x10, 0x11, 0x12, 0x13, 0x14, 0x15, 0x16, 0x17, 0x18, 0x19, 0x1A, 0x1B] FieldFile.zero 0

/-- The state with the given registers and a zero buffer. -/
def fldState (f : FieldFile) : State := stateOf [] f 0

/-- The twelve bytes of BUF. -/
def bytesOf (s : State) : List Byte := (List.range 12).map s.buf.read

/-- The response and the bytes of BUF after one presented word. -/
def bufAfter (w : CommandWord) (s : State) : Option (Option Response × List Byte) :=
  match step (s.present w) with
  | .next t => some (t.response, bytesOf t)
  | .fault _ => none
  | .refused _ => none

/-- The response, the field registers and STATUS after one presented word. -/
def fldAfter (w : CommandWord) (s : State) : Option (Option Response × FieldFile × BitVec 8) :=
  match step (s.present w) with
  | .next t => some (t.response, t.fld, t.status)
  | .fault _ => none
  | .refused _ => none

/-! ## WellFormed: each check refuses an ill-formed term (00_scope.md R7, 41_header.md R110) -/

theorem test_wellFormed_size_zero : Instr.wellFormedFor 0 .clrbuf = false := by decide
theorem test_wellFormed_size_8192 : Instr.wellFormedFor 8192 .clrbuf = false := by decide
theorem test_wellFormed_header_in_16_bytes :
    Instr.wellFormedFor 16 .enchdrReq = false ∧ Instr.wellFormedFor 11 .dechdrRsp = false := by decide
theorem test_wellFormed_accepts :
    Instr.wellFormedFor 1 .clrbuf = true ∧ Instr.wellFormedFor 8191 .clrbuf = true ∧
      Instr.wellFormed .enchdrReq = true := by decide

/-! ## Decoding: the words written out in 30_encoding.md R84, and the illegal words of 95 section 2.5 -/

theorem test_decode_wrfield : decode 0x01000C100000ABCD = .ok (.wrfield 12 16 0xABCD) := by decide
theorem test_decode_rdfield : decode 0x0200402000000000 = .ok (.rdfield 64 32) := by decide
theorem test_decode_clrbuf : decode 0x0300000000000000 = .ok .clrbuf := by decide
theorem test_decode_putbyte : decode 0x04000300000000A0 = .ok (.putbyte 3 0xA0) := by decide
theorem test_decode_getbyte : decode 0x05000B0000000000 = .ok (.getbyte 11) := by decide
theorem test_decode_setfld : decode 0x0800040000000005 = .ok (.setfld 4 5) := by decide
theorem test_decode_getfld : decode 0x0900020000000000 = .ok (.getfld 2) := by decide
theorem test_decode_clrfld : decode 0x0A00000000000000 = .ok .clrfld := by decide
theorem test_decode_getstat : decode 0x0F00000000000000 = .ok .getstat := by decide
theorem test_decode_enchdrReq : decode 0x1000000000000000 = .ok .enchdrReq := by decide
theorem test_decode_enchdrRsp : decode 0x1100000000000000 = .ok .enchdrRsp := by decide
theorem test_decode_dechdrReq : decode 0x1200000000000000 = .ok .dechdrReq := by decide
theorem test_decode_dechdrRsp : decode 0x1300000000000000 = .ok .dechdrRsp := by decide

/-- 95 section 2.5 rows 1 to 7. -/
theorem test_decode_illegal_opcodes :
    decode 0x0000000000000000 = .error (.illegalOpcode 0x00) ∧
      decode 0x0600000000000000 = .error (.illegalOpcode 0x06) ∧
      decode 0x0700000000000000 = .error (.illegalOpcode 0x07) ∧
      decode 0x0B00000000000000 = .error (.illegalOpcode 0x0B) ∧
      decode 0x0E00000000000000 = .error (.illegalOpcode 0x0E) ∧
      decode 0x1400000000000000 = .error (.illegalOpcode 0x14) ∧
      decode 0xFFFFFFFFFFFFFFFF = .error (.illegalOpcode 0xFF) := by decide

/-- 95 section 2.5 rows 8 to 14, section 2.2 row 14, section 2.3 (end), section 2.4 row 6. -/
theorem test_decode_must_be_zero :
    decode 0x0300000000000001 = .error (.mustBeZero 0x03) ∧
      decode 0x0300010000000000 = .error (.mustBeZero 0x03) ∧
      decode 0x0F00000100000000 = .error (.mustBeZero 0x0F) ∧
      decode 0x0500000000000001 = .error (.mustBeZero 0x05) ∧
      decode 0x0900000100000000 = .error (.mustBeZero 0x09) ∧
      decode 0x0A00000000000001 = .error (.mustBeZero 0x0A) ∧
      decode 0x05000C0100000000 = .error (.mustBeZero 0x05) ∧
      decode 0x0200000800000001 = .error (.mustBeZero 0x02) ∧
      decode 0x1000000000000001 = .error (.mustBeZero 0x10) ∧
      decode 0x1300010000000000 = .error (.mustBeZero 0x13) ∧
      decode 0x0400030100000000 = .error (.mustBeZero 0x04) := by decide

/-- 30_encoding.md R78 and 41_header.md R110: no header commands in a buffer of another size. -/
theorem test_decode_header_in_16_bytes :
    decodeFor 16 0x1000000000000000 = .error (.illegalOpcode 0x10) ∧ decodeFor 16 0x0300000000000000 = .ok .clrbuf := by
  decide

theorem test_decodeTableWord :
    decodeTableWord 64 0x0200402000000000 = some (.rdfield 64 32) ∧ decodeTableWord 64 0x0600000000000000 = none := by
  decide

/-! ## Reset and the step -/

/-- 10_state.md R33; GETSTAT after reset is 0 (95 section 2.4 row 16). -/
theorem test_reset :
    bytesOf State.reset = List.replicate 12 0 ∧
      fldAfter 0x0F00000000000000 State.reset = some (some ⟨0, 0⟩, ⟨0, 0, 0, 0, 0⟩, 0) := by decide

/-- 70_reset_and_hazards.md R210: a reset that arrives with a command in progress. -/
theorem test_reset_event :
    (match step { stateOf [1, 2] ⟨1, 2, 3, 4, 5⟩ 0x81 with pending := [.reset (some 0x0300000000000000)] } with
      | .next t => some t
      | .fault _ => none
      | .refused _ => none) = some State.reset := by decide

theorem test_withFetchWord :
    (match step (State.reset.withFetchWord 64 0x0800040000000005) with
      | .next t => some (t.fld, t.response)
      | .fault _ => none
      | .refused _ => none) = some (⟨0, 0, 0, 0, 5⟩, some ⟨0, 0⟩) := by decide

/-- 95 section 2.5 row 10: a GETSTAT word with `b` not zero changes STATUS. -/
theorem test_illegal_sets_status :
    fldAfter 0x0F00000100000000 State.reset = some (some ⟨4, 0⟩, ⟨0, 0, 0, 0, 0⟩, 0x84) := by decide

/-! ## One step of each command -/

/-- 95 section 2.1 row 9. -/
theorem test_wrfield :
    bufAfter 0x0100030A00000155 ffState =
      some (some ⟨0, 0⟩, [0xEA, 0xAF, 0xFF, 0xFF, 0xFF, 0xFF, 0xFF, 0xFF, 0xFF, 0xFF, 0xFF, 0xFF]) := by decide

/-- 95 section 2.1 row 19: out of range and too wide. -/
theorem test_wrfield_priority :
    fldAfter 0x01005F0200000007 ffState = some (some ⟨2, 0⟩, ⟨0, 0, 0, 0, 0⟩, 0x82) := by decide

/-- 95 section 2.2 row 4. -/
theorem test_rdfield :
    bufAfter 0x0200012000000000 rampState = some (some ⟨0, 0x20222426⟩, bytesOf rampState) := by decide

/-- 95 section 2.2 row 15: length first. -/
theorem test_rdfield_priority :
    fldAfter 0x02FFFFFF00000000 rampState = some (some ⟨3, 0⟩, ⟨0, 0, 0, 0, 0⟩, 0x83) := by decide

/-- 95 section 2.4 row 1. -/
theorem test_clrbuf : bufAfter 0x0300000000000000 ffState = some (some ⟨0, 0⟩, List.replicate 12 0) := by decide

/-- 95 section 2.4 row 2. -/
theorem test_putbyte :
    bufAfter 0x04000300000000A0 State.reset = some (some ⟨0, 0⟩, [0, 0, 0, 0xA0, 0, 0, 0, 0, 0, 0, 0, 0]) := by decide

/-- 95 section 2.4 row 4: index first, then value. -/
theorem test_putbyte_priority : bufAfter 0x04000C000000012C rampState = some (some ⟨2, 0⟩, bytesOf rampState) := by
  decide

/-- 42_access.md R132 on the ramp: byte 11 is 1B. -/
theorem test_getbyte : bufAfter 0x05000B0000000000 rampState = some (some ⟨0, 0x1B⟩, bytesOf rampState) := by decide

/-- 95 section 2.4 row 9. -/
theorem test_getbyte_range : bufAfter 0x05000C0000000000 rampState = some (some ⟨2, 0⟩, bytesOf rampState) := by decide

/-- 95 section 2.4 row 11. -/
theorem test_setfld :
    fldAfter 0x08000200FFFFFFFF (fldState ⟨1, 2, 3, 4, 5⟩) = some (some ⟨0, 0⟩, ⟨1, 2, 0xFFFFFFFF, 4, 5⟩, 0) := by
  decide

/-- 95 section 2.4 row 12. -/
theorem test_setfld_range :
    fldAfter 0x0800050000000001 (fldState ⟨1, 2, 3, 4, 5⟩) = some (some ⟨2, 0⟩, ⟨1, 2, 3, 4, 5⟩, 0x82) := by decide

/-- 95 section 2.4 row 13. -/
theorem test_getfld :
    fldAfter 0x0900020000000000 (fldState ⟨1, 2, 0xFFFFFFFF, 4, 5⟩) =
      some (some ⟨0, 0xFFFFFFFF⟩, ⟨1, 2, 0xFFFFFFFF, 4, 5⟩, 0) := by decide

/-- 95 section 2.4 row 14. -/
theorem test_getfld_range :
    fldAfter 0x0900050000000000 (fldState ⟨1, 2, 3, 4, 5⟩) = some (some ⟨2, 0⟩, ⟨1, 2, 3, 4, 5⟩, 0x82) := by decide

/-- 95 section 2.4 rows 15 and 18: FAULTED stays, LAST becomes 0. -/
theorem test_clrfld :
    fldAfter 0x0A00000000000000 (stateOf [] ⟨1, 2, 3, 4, 5⟩ 0x81) = some (some ⟨0, 0⟩, ⟨0, 0, 0, 0, 0⟩, 0x80) := by
  decide

/-- 95 section 2.4 row 17: LAST stays. -/
theorem test_getstat :
    fldAfter 0x0F00000000000000 (stateOf [] ⟨0, 0, 0, 0, 0⟩ 0x81) = some (some ⟨0, 0x81⟩, ⟨0, 0, 0, 0, 0⟩, 0x81) := by
  decide

/-- 95 section 2.3 row 3: every field at its maximum, over an FF buffer. -/
theorem test_enchdrReq :
    bufAfter 0x1000000000000000 (ffState.setFld ⟨15, 255, 0xFFFFFFFF, 15, 0x0FFFFFFF⟩) =
      some (some ⟨0, 0⟩, [0xF0, 0, 0, 0xFF, 0xFF, 0xFF, 0xFF, 0xFF, 0xFF, 0xFF, 0xFF, 0xFF]) := by decide

/-- 95 section 2.3 row 19. -/
theorem test_enchdrReq_value :
    bufAfter 0x1000000000000000 (ffState.setFld ⟨9, 0, 0, 4, 0x10000000⟩) =
      some (some ⟨1, 0⟩, List.replicate 12 0xFF) := by decide

/-- 95 section 2.3 row 5. -/
theorem test_enchdrRsp :
    bufAfter 0x1100000000000000 (fldState ⟨9, 1, 42, 123, 5⟩) =
      some (some ⟨0, 0⟩, [0x90, 0x10, 0x02, 0xA0, 0, 0, 0, 0x7B, 0, 0, 0, 5]) := by decide

/-- 95 section 2.3 row 20. -/
theorem test_enchdrRsp_value :
    bufAfter 0x1100000000000000 (fldState ⟨9, 1, 65536, 123, 5⟩) = some (some ⟨1, 0⟩, List.replicate 12 0) := by decide

/-- 95 section 2.3 row 15: reserved bits all 1. -/
theorem test_dechdrReq :
    fldAfter 0x1200000000000000 (stateOf [0x9F, 0xFF, 0xFF, 0, 1, 2, 3, 4, 0xF0, 0, 0, 0] ⟨1, 2, 3, 4, 5⟩ 0) =
      some (some ⟨0, 0⟩, ⟨9, 0, 16909060, 15, 0⟩, 0) := by decide

/-- 95 section 2.3 row 14. -/
theorem test_dechdrRsp :
    fldAfter 0x1300000000000000 ffState = some (some ⟨0, 0⟩, ⟨15, 255, 65535, 4294967295, 4294967295⟩, 0) := by decide

/-! ## The packet layer (95 section 2.6) and the assembler (30_encoding.md R81) -/

/-- The code units of an ASCII name. -/
def unitsOf (name : String) : List CodeUnit := name.toList.map fun c => BitVec.ofNat 16 c.toNat

/-- Row 9. -/
theorem test_buildReq :
    (buildReq 9 (unitsOf "photo") "png".toList 123 ffState).2 =
      .ok [0x90, 0, 0, 0, 0, 0, 0, 0x7B, 0x40, 0, 0, 0x0A, 0, 0x70, 0, 0x68, 0, 0x6F, 0, 0x74, 0, 0x6F] := by decide

/-- Rows 8 and 12. -/
theorem test_buildReq_fails :
    (buildReq 9 (unitsOf "photo") "webp".toList 123 ffState) = (ffState, .unknownExtension) ∧
      (buildReq 16 (unitsOf "cat") "png".toList 0 ffState).2 = .blockFault .valueError := by decide

/-- Row 14: trailing bytes ignored. -/
theorem test_parseReq :
    (parseReq [0x90, 0, 0, 0, 0, 0, 0, 0x7B, 0x40, 0, 0, 0x0A, 0, 0x70, 0, 0x68, 0, 0x6F, 0, 0x74, 0, 0x6F, 0xAA, 0xBB]
      ffState).2 = .ok ⟨9, 0, 123, 4, unitsOf "photo"⟩ := by decide

/-- Row 15. -/
theorem test_parseReq_truncated :
    (parseReq [0x90, 0, 0, 0, 0, 0, 0, 0x7B, 0x40, 0, 0, 0x0A, 0, 0x70, 0, 0x68, 0, 0x6F, 0, 0x74, 0] ffState).2 =
      .truncatedPacket := by decide

/-- Row 17. -/
theorem test_buildRsp :
    (buildRsp 9 1 42 123 [1, 2, 3, 4, 5] ffState).2 =
      .ok [0x90, 0x10, 0x02, 0xA0, 0, 0, 0, 0x7B, 0, 0, 0, 5, 1, 2, 3, 4, 5] := by decide

/-- Rows 21 and 22. -/
theorem test_parseRsp_truncated :
    parseRsp [0x90, 0x10, 0x02, 0xA0, 0, 0, 0, 0x7B] ffState = (ffState, .truncatedPacket) ∧
      (parseRsp [0x90, 0x10, 0x02, 0xA0, 0, 0, 0, 0x7B, 0, 0, 0, 5, 1, 2, 3, 4] ffState).2 = .truncatedPacket := by
  decide

/-- Row 20. -/
theorem test_parseRsp :
    (parseRsp [0x90, 0x10, 0x02, 0xA0, 0, 0, 0, 0x7B, 0, 0, 0, 5, 1, 2, 3, 4, 5] ffState).2 =
      .ok ⟨9, 1, 42, 123, 5, [1, 2, 3, 4, 5]⟩ := by decide

/-- Rows 7 and 8. -/
theorem test_codeOf :
    ["bmp", "JPEG", "Gif", "png", "TIFF", "raw", "webp", "jpg"].map (fun e => codeOf e.toList) =
      [some 1, some 2, some 3, some 4, some 5, some 15, none, none] := by decide

/-- R81: decimal and `0x` hexadecimal numerals; a letter is no decimal digit. -/
theorem test_numeral :
    numeral "0xABCD".toList = some 43981 ∧ numeral "65535".toList = some 65535 ∧ numeral "1A".toList = none ∧
      numeral "0xG".toList = none := by decide

/-- R81: a register by its field name, a comment, a response. -/
theorem test_assembleLine :
    assembleLine "SETFLD REQ.timestamp, 0x7b => OK 0 ; P2 step 3".toList =
        .command (.setfld 2 0x7B) (some (.ok 0)) ∧
      assembleLine "ENCHDR.RSP => ValueError".toList = .command .enchdrRsp (some (.fault .valueError)) ∧
      assembleLine "  ; nothing".toList = .blank ∧ assembleLine "GETFLD -1".toList = .bad := by decide

/-! ## Witnesses of the statements' hypotheses -/

/-- A state with one word presented. -/
def presented (w : CommandWord) : State := ffState.present w

/-- Registers that fit the request layout with every field at its maximum. -/
def maxReq : State := fldState ⟨15, 255, 0xFFFFFFFF, 15, 0x0FFFFFFF⟩

/-- Registers that fit the response layout with every field at its maximum. -/
def maxRsp : State := fldState ⟨15, 255, 65535, 0xFFFFFFFF, 0xFFFFFFFF⟩

theorem witness_ResetLeavesEverythingZero : 11 < 12 := by decide

theorem witness_ResetEventRestoresResetValues :
    ({ ffState with pending := [.reset (some 0x0300000000000000)] } : State).pending =
      .reset (some 0x0300000000000000) :: [] := rfl

theorem witness_StepRunsTheDecodedCommand :
    (presented 0x0100400000000000).pending = .command 0x0100400000000000 :: [] ∧
      decode 0x0100400000000000 = .ok (.wrfield 64 0 0) ∧ (Instr.wrfield 64 0 0).wellFormed = true :=
  ⟨rfl, by decide, by decide⟩

theorem witness_IdleStepChangesNothing : ffState.pending = [] := rfl

theorem witness_CommandsLeaveTheHostsListAlone :
    exec .clrfld ffState = .next { ffState with status := 0, response := some ⟨0, 0⟩ } := rfl

theorem witness_EveryWordIsAnsweredInOneStep : (presented 0).pending = .command 0 :: [] := rfl

theorem witness_EveryStepKeepsTheInvariant :
    State.Inv (presented 0x0300000000000000) ∧
      step (presented 0x0300000000000000) = .next { State.reset with response := some ⟨0, 0⟩ } :=
  ⟨⟨by decide, by decide⟩, rfl⟩

theorem witness_DecodeOfEncodeIsTheCommand :
    Instr.wellFormedFor 12 .dechdrRsp = true ∧ Instr.wellFormedFor 8191 (.putbyte 0xFFFF 0xFFFFFFFF) = true := by
  decide

theorem witness_EncodeOfDecodeIsTheWord :
    decodeFor 12 0x01FFFFFFFFFFFFFF = .ok (.wrfield 0xFFFF 0xFF 0xFFFFFFFF) := by decide

theorem witness_OpcodesOutsideTheMapAreIllegal :
    wordOp 0x0000000000000000 ∉ [0x01, 0x02, 0x03, 0x04, 0x05, 0x08, 0x09, 0x0A, 0x0F, 0x10, 0x11, 0x12, 0x13] ∧
      wordOp 0x1400000000000000 ∉ [0x01, 0x02, 0x03, 0x04, 0x05, 0x08, 0x09, 0x0A, 0x0F, 0x10, 0x11, 0x12, 0x13] ∧
      11 ≠ 12 ∧ wordOp 0x1300000000000000 ∈ [0x10, 0x11, 0x12, 0x13] := by decide

theorem witness_WordsSelectingNoRowTakeIllegalCommand :
    execWord 0 ffState = .next (ffState.raiseFault .illegalCommand) := rfl

/-- `WordRuns`: a word of each kind for an opcode with must-be-zero fields. -/
theorem witness_WordRuns :
    wordOp 0x0300000000000000 = 0x03 ∧ noOperands 0x0300000000000000 = true ∧
      wordOp 0x0300000000000001 = 0x03 ∧ noOperands 0x0300000000000001 = false := by decide

theorem witness_WrfieldWritesItsBitsOrFaults :
    ffState.buf.wf = true ∧
      ((32#8).toNat ≤ 32 ∧ (64#16).toNat + (32#8).toNat ≤ 96 ∧ (0xFFFFFFFF#32).toNat < 2 ^ (32#8).toNat) ∧
      32 < (33#8).toNat ∧
      ((2#8).toNat ≤ 32 ∧ 96 < (95#16).toNat + (2#8).toNat) ∧
      ((0#8).toNat ≤ 32 ∧ (96#16).toNat + (0#8).toNat ≤ 96 ∧ 2 ^ (0#8).toNat ≤ (1#32).toNat) := by decide

theorem witness_RdfieldReadsItsBitsOrFaults :
    ((32#8).toNat ≤ 32 ∧ (64#16).toNat + (32#8).toNat ≤ 96) ∧ 32 < (33#8).toNat ∧
      ((32#8).toNat ≤ 32 ∧ 96 < (65#16).toNat + (32#8).toNat) := by decide

theorem witness_PutbyteStoresOneByteOrFaults :
    ffState.buf.wf = true ∧ ((11#16).toNat < 12 ∧ (255#32).toNat < 256) ∧ 12 ≤ (12#16).toNat ∧
      ((11#16).toNat < 12 ∧ 256 ≤ (256#32).toNat) := by decide

theorem witness_GetbyteReturnsOneByteOrFaults : (11#16).toNat < 12 ∧ 12 ≤ (12#16).toNat := by decide

theorem witness_SetfldWritesOneRegisterOrFaults : (4#16).toNat < 5 ∧ 5 ≤ (5#16).toNat := by decide

theorem witness_GetfldReturnsOneRegisterOrFaults : (4#16).toNat < 5 ∧ 5 ≤ (5#16).toNat := by decide

theorem witness_EnchdrReqBuildsTheRequestHeader :
    (maxReq.fld.fld0.toNat < 16 ∧ maxReq.fld.fld1.toNat < 256 ∧ maxReq.fld.fld3.toNat < 16 ∧
      maxReq.fld.fld4.toNat < 268435456) ∧
      16 ≤ (fldState ⟨16, 0, 0, 0, 0⟩).fld.fld0.toNat ∧ 256 ≤ (fldState ⟨0, 256, 0, 0, 0⟩).fld.fld1.toNat ∧
      16 ≤ (fldState ⟨0, 0, 0, 16, 0⟩).fld.fld3.toNat ∧
      268435456 ≤ (fldState ⟨0, 0, 0, 0, 0x10000000⟩).fld.fld4.toNat := by decide

theorem witness_EnchdrRspBuildsTheResponseHeader :
    (maxRsp.fld.fld0.toNat < 16 ∧ maxRsp.fld.fld1.toNat < 256 ∧ maxRsp.fld.fld2.toNat < 65536) ∧
      16 ≤ (fldState ⟨16, 0, 0, 0, 0⟩).fld.fld0.toNat ∧ 256 ≤ (fldState ⟨0, 256, 0, 0, 0⟩).fld.fld1.toNat ∧
      65536 ≤ (fldState ⟨0, 0, 65536, 0, 0⟩).fld.fld2.toNat := by decide

theorem witness_FieldReadsBackAsWritten :
    ffState.buf.wf = true ∧ (32#8).toNat ≤ 32 ∧ (64#16).toNat + (32#8).toNat ≤ 96 ∧
      (0x80000000#32).toNat < 2 ^ (32#8).toNat := by decide

theorem witness_FieldWriteLeavesTheRestAlone :
    ffState.buf.wf = true ∧ ∃ t, exec (.wrfield 8 8 0) ffState = .next t ∧ EndsOk ffState t 0 ∧
      (7 < (8#16).toNat ∧ (8#16).toNat + (8#8).toNat ≤ 16) ∧
      (8 * 0 + 8 ≤ (8#16).toNat ∧ (8#16).toNat + (8#8).toNat ≤ 8 * 2) ∧
      ((0#16).toNat + (8#8).toNat ≤ (8#16).toNat ∧ (8#16).toNat + (8#8).toNat ≤ (16#16).toNat) := by
  refine ⟨by decide, _, rfl, ?_, by decide, by decide, by decide⟩
  unfold EndsOk
  decide

theorem witness_FieldsAreDigitsOfTheWholeBuffer : 95 < 96 ∧ 64 + 32 ≤ 96 := by decide

theorem witness_FieldWriteOnTheWholeBuffer :
    ffState.buf.wf = true ∧ (10#8).toNat ≤ 32 ∧ (86#16).toNat + (10#8).toNat ≤ 96 ∧
      (0x3FF#32).toNat < 2 ^ (10#8).toNat := by decide

theorem witness_ZeroLengthFields : (96#16).toNat ≤ 96 ∧ 1 ≤ (1#32).toNat ∧ 96 < (97#16).toNat := by decide

/-- One field written twice, and two adjacent fields: the four successful writes of each order. -/
theorem witness_OverlappingAndDisjointFieldWrites :
    ffState.buf.wf = true ∧
      (∃ t1 t12 t2 t21, exec (.wrfield 4 8 1) ffState = .next t1 ∧ EndsOk ffState t1 0 ∧
        exec (.wrfield 4 8 2) t1 = .next t12 ∧ EndsOk t1 t12 0 ∧
        exec (.wrfield 4 8 2) ffState = .next t2 ∧ EndsOk ffState t2 0 ∧
        exec (.wrfield 4 8 1) t2 = .next t21 ∧ EndsOk t2 t21 0) ∧
      (∃ t1 t12 t2 t21, exec (.wrfield 4 8 1) ffState = .next t1 ∧ EndsOk ffState t1 0 ∧
        exec (.wrfield 12 8 2) t1 = .next t12 ∧ EndsOk t1 t12 0 ∧
        exec (.wrfield 12 8 2) ffState = .next t2 ∧ EndsOk ffState t2 0 ∧
        exec (.wrfield 4 8 1) t2 = .next t21 ∧ EndsOk t2 t21 0 ∧ (4#16).toNat + (8#8).toNat ≤ (12#16).toNat) := by
  unfold EndsOk
  exact ⟨by decide, ⟨_, _, _, _, rfl, by decide, rfl, by decide, rfl, by decide, rfl, by decide⟩,
    ⟨_, _, _, _, rfl, by decide, rfl, by decide, rfl, by decide, rfl, by decide, by decide⟩⟩

theorem witness_FieldIsItsTwoParts :
    (16#8).toNat + (16#8).toNat ≤ 32 ∧ (64#16).toNat + (16#8).toNat + (16#8).toNat ≤ 96 ∧ ffState.buf.wf = true ∧
      (0xFFFFFFFF#32).toNat < 2 ^ ((16#8).toNat + (16#8).toNat) := by decide

theorem witness_ByteViewAgreesWithBitView :
    exec (.getbyte 11) rampState = .next (rampState.respond 0x1B) ∧
      exec .getstat rampState = .next (rampState.respondKeepingLast 0) ∧ (11#16).toNat < 12 :=
  ⟨rfl, rfl, by decide⟩

theorem witness_RepeatedWritesAreIdempotent :
    ffState.buf.wf = true ∧ (mayWriteBuf .clrbuf || mayWriteFld .clrbuf) = true ∧
      exec .clrbuf ffState = .next { State.reset with response := some ⟨0, 0⟩ } :=
  ⟨by decide, by decide, rfl⟩

theorem witness_HeaderRoundTrip :
    (maxReq.fld.fld0.toNat < 16 ∧ maxReq.fld.fld1.toNat < 256 ∧ maxReq.fld.fld3.toNat < 16 ∧
      maxReq.fld.fld4.toNat < 268435456) ∧
      (maxRsp.fld.fld0.toNat < 16 ∧ maxRsp.fld.fld1.toNat < 256 ∧ maxRsp.fld.fld2.toNat < 65536) := by decide

/-- The bytes of the two packets of 95 section 2.3 rows 11 and 12 as BUF, and two fields of the tables. -/
theorem witness_WrongLayoutDecodesWithoutFault :
    memOf [0x90, 0x10, 0x02, 0xA0, 0, 0, 0, 0x7B, 0, 0, 0, 0x05] =
        ⟨[(0, 0x90), (1, 0x10), (2, 0x02), (3, 0xA0), (7, 0x7B), (11, 0x05)]⟩ ∧
      memOf [0x90, 0, 0, 0, 0, 0, 0, 0x7B, 0x40, 0, 0, 0x0A] =
        ⟨[(0, 0x90), (7, 0x7B), (8, 0x40), (11, 0x0A)]⟩ ∧
      FieldDesc.mk .timestamp 32 32 ∈ layoutFields .req ∧ FieldDesc.mk .timestamp 32 32 ∈ layoutFields .rsp ∧
      FieldDesc.mk .imageTypeCode 64 4 ∈ layoutFields .req ∧ FieldDesc.mk .payloadLength 64 32 ∈ layoutFields .rsp := by
  decide

/-- A buffer of ones, and one whose reserved bits of both layouts are 0. -/
theorem witness_DecodeThenEncodeClearsReservedBits :
    ffState.buf.wf = true ∧ State.reset.buf.wf = true ∧
      ∀ k, (isReserved .req k || isReserved .rsp k) = true → State.reset.buf.bit k = false :=
  ⟨by decide, by decide, fun _ _ => BitVec.getLsbD_zero⟩

/-- A successful ENCHDR.REQ with its fields in another order, and a DECHDR.RSP with its last field. -/
theorem witness_HeaderCommandsAreFieldCommands :
    (∃ t, exec (enchdrOf .req) maxReq = .next t ∧ t.response = some ⟨0, 0⟩ ∧ statusLast t.status = 0 ∧
      statusFaulted t.status = statusFaulted maxReq.status ∧ t.status.extractLsb' 3 4 = 0) ∧
      List.Perm ((layoutFields .req).zip maxReq.fld.toList).reverse
        ((layoutFields .req).zip [maxReq.fld.fld0, maxReq.fld.fld1, maxReq.fld.fld2, maxReq.fld.fld3, maxReq.fld.fld4]) ∧
      (layoutFields .rsp)[4]? = some ⟨.payloadLength, 64, 32⟩ :=
  ⟨⟨_, rfl, by decide, by decide, by decide, by decide⟩, List.reverse_perm _, by decide⟩

/-- Reserved bits at both ends of both ranges, and two buffers that differ in them alone. -/
theorem witness_ReservedBitsAreZeroAndIgnored :
    isReserved .req 4 = true ∧ isReserved .req 23 = true ∧ isReserved .req 24 = false ∧
      isReserved .rsp 28 = true ∧ isReserved .rsp 31 = true ∧ isReserved .rsp 32 = false ∧
      (∀ k : Fin 96, isReserved .rsp k = false → (memOf [0x90, 0, 0, 0x1F]).bit k = (memOf [0x90, 0, 0, 0x10]).bit k) ∧
      memOf [0x90, 0, 0, 0x1F] ≠ memOf [0x90, 0, 0, 0x10] := by decide

theorem witness_AFaultChangesOnlyStatus :
    execWord 0 ffState = .next (ffState.raiseFault .illegalCommand) ∧
      (ffState.raiseFault .illegalCommand).response = some ⟨4, 0⟩ ∧ (4 : BitVec 3) ≠ 0 :=
  ⟨rfl, by decide, by decide⟩

theorem witness_AFaultDoesNotAffectTheNextCommand :
    ∃ t, execWord 0x0200002100000000 ffState = .next t ∧ EndsFault ffState t .lengthError := by
  refine ⟨_, rfl, ?_⟩
  unfold EndsFault
  decide

/-- The three kinds of word: a GETSTAT, another command, an illegal GETSTAT word. -/
theorem witness_LastRecordsTheOutcome :
    decode 0x0F00000000000000 = .ok .getstat ∧ decode 0x0300000000000000 ≠ .ok .getstat ∧
      wordOp 0x0F00000100000000 = 0x0F ∧ noOperands 0x0F00000100000000 = false := by decide

theorem witness_FaultedIsStickyAndUnread : decode 0x0F00000000000001 ≠ .ok .getstat := by decide

theorem witness_OnlyTheNamedStateChanges :
    ffState.buf.wf = true ∧ (∃ t, exec (.wrfield 8 8 0) ffState = .next t) ∧
      (∃ t, exec (.rdfield 8 8) ffState = .next t) ∧ mayWriteBuf (.rdfield 8 8) = false ∧
      mayWriteFld (.wrfield 8 8 0) = false ∧ (7 < (8#16).toNat ∧ (8#16).toNat + (8#8).toNat ≤ 16) ∧
      (∃ t, exec (.putbyte 11 0) ffState = .next t) ∧ 10 ≠ (11#16).toNat ∧
      (∃ t, exec (.setfld 4 1) ffState = .next t) ∧ 3 ≠ (4#16).toNat :=
  ⟨by decide, ⟨_, rfl⟩, ⟨_, rfl⟩, rfl, rfl, by decide, ⟨_, rfl⟩, by decide, ⟨_, rfl⟩, by decide⟩

theorem witness_WideSequenceNumberIsRefused : 65536 ≤ (65536#32).toNat := by decide

/-- Every field at its maximum, and each field just past it. -/
theorem witness_BuildrspGivesHeaderAndPayload :
    (15 < 16 ∧ 255 < 256 ∧ 65535 < 65536 ∧ 2 ^ 32 - 1 < 2 ^ 32 ∧ ([1, 2, 3, 4, 5] : List Byte).length < 2 ^ 32) ∧
      (16 ≤ 16 ∧ 256 ≤ 256 ∧ 65536 ≤ 65536 ∧ 2 ^ 32 ≤ 2 ^ 32 ∧
        2 ^ 32 ≤ (List.replicate (2 ^ 32) (0 : Byte)).length) := by
  rw [List.length_replicate]
  decide

/-- An unknown extension; a known one with every value at its maximum; each value just past it. -/
theorem witness_BuildreqGivesHeaderAndName :
    codeOf "webp".toList = none ∧ codeOf "raw".toList = some 15 ∧
      (15 < 16 ∧ 2 ^ 32 - 1 < 2 ^ 32 ∧ 2 * (unitsOf "photo").length < 2 ^ 28) ∧
      (16 ≤ 16 ∧ 2 ^ 32 ≤ 2 ^ 32 ∧ 2 ^ 28 ≤ 2 * (List.replicate (2 ^ 27) (0 : CodeUnit)).length) := by
  rw [List.length_replicate]
  decide

/-- Eleven bytes; a header with declared length 2 and 1, 2 and 3 bytes after it. -/
theorem witness_ParserspDecodesOrIsTruncated :
    ffState.buf.wf = true ∧ (List.replicate 11 (0 : Byte)).length < 12 ∧
      2 = (0 : Byte).toNat * 2 ^ 24 + (0 : Byte).toNat * 2 ^ 16 + (0 : Byte).toNat * 2 ^ 8 + (2 : Byte).toNat ∧
      ([7] : List Byte).length < 2 ∧ 2 ≤ ([7, 8] : List Byte).length ∧ 2 ≤ ([7, 8, 9] : List Byte).length := by decide

/-- Eleven bytes; the high nibble of byte 8 is no part of the length; declared 2 with 1 and 2 bytes, declared 1 with 1. -/
theorem witness_ParsereqDecodesOrIsTruncated :
    ffState.buf.wf = true ∧ (List.replicate 11 (0 : Byte)).length < 12 ∧
      2 = (0xF0 : Byte).toNat % 16 * 2 ^ 24 + (0 : Byte).toNat * 2 ^ 16 + (0 : Byte).toNat * 2 ^ 8 + (2 : Byte).toNat ∧
      ([7] : List Byte).length < 2 ∧ (2 ≤ ([7, 8] : List Byte).length ∧ 2 % 2 = 0) ∧
      (1 ≤ ([7] : List Byte).length ∧ 1 % 2 = 1) := by decide

theorem witness_PacketRoundTrip :
    rampState.buf.wf = true ∧
      (buildReq 15 [] "raw".toList 7 ffState).2 = .ok [0xF0, 0, 0, 0, 0, 0, 0, 7, 0xF0, 0, 0, 0] ∧
      (buildRsp 9 2 43 124 [] ffState).2 = .ok [0x90, 0x20, 0x02, 0xB0, 0, 0, 0, 0x7C, 0, 0, 0, 0] := by decide

theorem witness_ExpansionsDoNotDependOnOldState :
    (List.replicate 12 (0xFF : Byte)).length = 12 ∧ ffState.buf.wf = true ∧ rampState.buf.wf = true := by decide

/-- A code unit at an index; an odd and an even number of bytes. -/
theorem witness_NameEncodingRoundTrip :
    (unitsOf "photo")[4]? = some 0x6F ∧ nameOf [0x00] = none ∧ ([0x00] : List Byte).length % 2 = 1 ∧
      nameOf [0x4E, 0x2D] = some [0x4E2D] := by decide

/-- Each defined code has an extension, so the hypothesis of the first clause is met. -/
theorem witness_ExtensionLookupIgnoresLetterCase :
    ∃ name, extensionOf 15 = .ok name := ⟨_, rfl⟩

end Sys2Proof.Tests
end

section
/-! SUPPORT. A word that is no GETSTAT is answered from BUF and FLD alone: its answer is one fixed fault or one fixed
update, whatever STATUS, the host's list and the last response hold. -/

namespace Sys2Proof.Machine

/-- How a command other than GETSTAT ends, fixed before STATUS is looked at. -/
inductive Answer where
  /-- The command takes a fault (R186). -/
  | fault (k : FaultKind)
  /-- The command leaves these contents of BUF and FLD and responds with `data` (R10). -/
  | done (buf : Memory) (fld : FieldFile) (data : Word)

/-- The state in which an answer leaves the block. -/
def Answer.apply (s : State) : Answer → State
  | .fault k => s.raiseFault k
  | .done m f d => ((s.setBuf m).setFld f).respond d

/-- The response an answer hands over (R31). -/
def Answer.response : Answer → Response
  | .fault k => ⟨k.code, 0⟩
  | .done _ _ d => ⟨0, d⟩

@[simp] theorem Answer.apply_fault (s : State) (k : FaultKind) : (Answer.fault k).apply s = s.raiseFault k := rfl

@[simp] theorem Answer.apply_done (s : State) (m : Memory) (f : FieldFile) (d : Word) :
    (Answer.done m f d).apply s = ((s.setBuf m).setFld f).respond d := rfl

@[simp] theorem Answer.apply_response (s : State) (a : Answer) : (a.apply s).response = some a.response := by
  cases a <;> rfl

/-- LAST is the code of the response (R29). -/
@[simp] theorem Answer.statusLast_apply (s : State) (a : Answer) :
    statusLast (a.apply s).status = a.response.code := by
  cases a <;> simp [Answer.response]

/-- A fault sets FAULTED, and a success keeps it (R30). -/
@[simp] theorem Answer.statusFaulted_apply (s : State) (a : Answer) :
    statusFaulted (a.apply s).status = (statusFaulted s.status || a.response.code != 0) := by
  cases a with
  | fault k =>
    have hk : k.code ≠ 0#3 := k.code_ne_zero
    simp [Answer.response, hk]
  | done m f d => simp [Answer.response]

/-- An answer leaves the same BUF in states with the same BUF. -/
theorem Answer.apply_buf_congr {s t : State} (a : Answer) (h : s.buf = t.buf) :
    (a.apply s).buf = (a.apply t).buf := by
  cases a with
  | fault k => exact h
  | done m f d => rfl

/-- An answer leaves the same FLD in states with the same FLD. -/
theorem Answer.apply_fld_congr {s t : State} (a : Answer) (h : s.fld = t.fld) :
    (a.apply s).fld = (a.apply t).fld := by
  cases a with
  | fault k => exact h
  | done m f d => rfl

/-- ENCHDR's answer from the registers it finds (R111, R112). -/
theorem encodeHeader_answer (l : Layout) (b : Memory) (f : FieldFile) :
    ∃ a : Answer, ∀ s : State, s.buf = b → s.fld = f → s.encodeHeader l = a.apply s := by
  cases hf : fieldsFit l f
  · refine ⟨.fault .valueError, ?_⟩
    rintro s rfl rfl
    simp [State.encodeHeader, hf]
  · refine ⟨.done (encodeHeaderBuf l f) f 0, ?_⟩
    rintro s rfl rfl
    simp [State.encodeHeader, hf, State.setBuf_setFld_fld]

/-- Every command but GETSTAT has one answer for given BUF and FLD: it reads nothing else of the state (R30). -/
theorem exec_answer (i : Instr) (hi : i ≠ .getstat) (b : Memory) (f : FieldFile) :
    ∃ a : Answer, ∀ s : State, s.buf = b → s.fld = f → exec i s = .next (a.apply s) := by
  cases i with
  | wrfield off len val =>
    cases hk : fieldFault Config.nbytes off.toNat len.toNat with
    | some k => exact ⟨.fault k, fun s _ _ => by simp [exec, execWrfield, hk]⟩
    | none =>
      cases hv : valueFits len.toNat val.toNat with
      | false => exact ⟨.fault .valueError, fun s _ _ => by simp [exec, execWrfield, hk, hv]⟩
      | true =>
        refine ⟨.done (b.writeField val.toNat off.toNat len.toNat) f 0, ?_⟩
        rintro s rfl rfl
        simp [exec, execWrfield, hk, hv, State.setBuf_setFld_fld]
  | rdfield off len =>
    cases hk : fieldFault Config.nbytes off.toNat len.toNat with
    | some k => exact ⟨.fault k, fun s _ _ => by simp [exec, execRdfield, hk]⟩
    | none =>
      refine ⟨.done b f (BitVec.ofNat 32 (b.readField off.toNat len.toNat)), ?_⟩
      rintro s rfl rfl
      simp only [exec, execRdfield, hk]
      rfl
  | clrbuf =>
    refine ⟨.done Memory.cleared f 0, ?_⟩
    rintro s rfl rfl
    rfl
  | putbyte idx byte =>
    cases hk : byteFault Config.nbytes idx.toNat with
    | some k => exact ⟨.fault k, fun s _ _ => by simp [exec, execPutbyte, hk]⟩
    | none =>
      cases hv : valueFits 8 byte.toNat with
      | false => exact ⟨.fault .valueError, fun s _ _ => by simp [exec, execPutbyte, hk, hv]⟩
      | true =>
        refine ⟨.done (b.write idx.toNat (BitVec.ofNat 8 byte.toNat)) f 0, ?_⟩
        rintro s rfl rfl
        simp [exec, execPutbyte, hk, hv, State.setBuf_setFld_fld]
  | getbyte idx =>
    cases hk : byteFault Config.nbytes idx.toNat with
    | some k => exact ⟨.fault k, fun s _ _ => by simp [exec, execGetbyte, hk]⟩
    | none =>
      refine ⟨.done b f ((b.read idx.toNat).setWidth 32), ?_⟩
      rintro s rfl rfl
      simp only [exec, execGetbyte, hk]
      rfl
  | setfld idx val =>
    cases hk : fldFault idx.toNat with
    | some k => exact ⟨.fault k, fun s _ _ => by simp [exec, execSetfld, hk]⟩
    | none =>
      refine ⟨.done b (f.set idx.toNat val) 0, ?_⟩
      rintro s rfl rfl
      simp only [exec, execSetfld, hk]
      rfl
  | getfld idx =>
    cases hv : f.get? idx.toNat with
    | none =>
      refine ⟨.fault .rangeError, ?_⟩
      rintro s rfl rfl
      simp [exec, execGetfld, hv]
    | some v =>
      refine ⟨.done b f v, ?_⟩
      rintro s rfl rfl
      simp only [exec, execGetfld, hv]
      rfl
  | clrfld =>
    refine ⟨.done b FieldFile.zero 0, ?_⟩
    rintro s rfl rfl
    rfl
  | getstat => exact absurd rfl hi
  | enchdrReq =>
    obtain ⟨a, ha⟩ := encodeHeader_answer .req b f
    exact ⟨a, fun s hb hf => congrArg _ (ha s hb hf)⟩
  | enchdrRsp =>
    obtain ⟨a, ha⟩ := encodeHeader_answer .rsp b f
    exact ⟨a, fun s hb hf => congrArg _ (ha s hb hf)⟩
  | dechdrReq =>
    refine ⟨.done b (decodeHeaderFld .req b f) 0, ?_⟩
    rintro s rfl rfl
    rfl
  | dechdrRsp =>
    refine ⟨.done b (decodeHeaderFld .rsp b f) 0, ?_⟩
    rintro s rfl rfl
    rfl

theorem execWord_of_decode_ok {w : CommandWord} {i : Instr} (h : decode w = .ok i) (s : State) :
    execWord w s = exec i s := by
  simp [execWord, h]

theorem execWord_of_decode_error {w : CommandWord} {e : DecodeError} (h : decode w = .error e) (s : State) :
    execWord w s = .next (s.raiseFault .illegalCommand) := by
  simp [execWord, h]

/-- Every word but a legal GETSTAT has one answer for given BUF and FLD (R30, R79). -/
theorem execWord_answer (w : CommandWord) (hw : decode w ≠ .ok .getstat) (b : Memory) (f : FieldFile) :
    ∃ a : Answer, ∀ s : State, s.buf = b → s.fld = f → execWord w s = .next (a.apply s) := by
  cases hd : decode w with
  | ok i =>
    obtain ⟨a, ha⟩ := exec_answer i (by rintro rfl; exact hw hd) b f
    exact ⟨a, fun s hb hf => by rw [execWord_of_decode_ok hd, ha s hb hf]⟩
  | error e => exact ⟨.fault .illegalCommand, fun s _ _ => execWord_of_decode_error hd s⟩

/-- A legal GETSTAT reports STATUS and writes nothing but the response (R29, R136). -/
theorem execWord_getstat {w : CommandWord} (h : decode w = .ok .getstat) (s : State) :
    execWord w s = .next (s.respondKeepingLast ((statusRead s.status).setWidth 32)) :=
  execWord_of_decode_ok h s

/-- The words of GETSTAT's opcode: GETSTAT when every operand field is zero, else illegal (R76, R77). -/
theorem decode_of_wordOp_getstat {w : CommandWord} (h : wordOp w = 0x0F) :
    decode w = requireZero (noOperands w) 0x0F .getstat := by
  simp [decode, decodeFor, decodeFields, h, noOperands]

theorem decode_illegal_getstat {w : CommandWord} (h : wordOp w = 0x0F) (hz : noOperands w = false) :
    decode w = .error (.mustBeZero 0x0F) := by
  simp [decode_of_wordOp_getstat h, hz, requireZero]

end Sys2Proof.Machine
end

section
/-! The statements of 10_state.md. -/

namespace Sys2Proof.Machine

/-- Settles O45: a GETSTAT writes no STATUS, and every other word ends with one answer, whose code goes to LAST. -/
theorem lastRecordsTheOutcome : Obligations.LastRecordsTheOutcome := by
  unfold Obligations.LastRecordsTheOutcome
  intro w s
  by_cases hw : decode w = .ok .getstat
  · refine ⟨_, _, execWord_getstat hw s, rfl, fun _ => ⟨rfl, rfl⟩, fun hne => absurd hw hne, fun hop hz => ?_⟩
    rw [decode_illegal_getstat hop hz] at hw
    cases hw
  · obtain ⟨a, ha⟩ := execWord_answer w hw s.buf s.fld
    have hnext := ha s rfl rfl
    refine ⟨_, a.response, hnext, by simp, fun h => absurd h hw, fun _ => by simp, fun hop hz => ?_⟩
    have hillegal := execWord_of_decode_error (decode_illegal_getstat hop hz) s
    rw [hnext, Host.Outcome.next.injEq] at hillegal
    rw [hillegal]
    simp [FaultKind.code]

/-- FAULTED after a word: as it was, or 1 if the word was answered with a fault code (R30). -/
theorem execWord_statusFaulted (w : CommandWord) (s : State) :
    ∃ t r, execWord w s = .next t ∧ t.response = some r ∧
      statusFaulted t.status = (statusFaulted s.status || r.code != 0) := by
  by_cases hw : decode w = .ok .getstat
  · exact ⟨_, _, execWord_getstat hw s, rfl, by simp⟩
  · obtain ⟨a, ha⟩ := execWord_answer w hw s.buf s.fld
    exact ⟨_, a.response, ha s rfl rfl, by simp, by simp⟩

/-- Two states with the same BUF and FLD answer a word alike, GETSTAT's report apart (R30). -/
theorem execWord_congr (w : CommandWord) {s t : State} (hb : t.buf = s.buf) (hf : t.fld = s.fld) :
    ∃ s' t', execWord w s = .next s' ∧ execWord w t = .next t' ∧ t'.buf = s'.buf ∧ t'.fld = s'.fld ∧
      (decode w ≠ .ok .getstat → t'.response = s'.response) := by
  by_cases hw : decode w = .ok .getstat
  · exact ⟨_, _, execWord_getstat hw s, execWord_getstat hw t, hb, hf, fun hne => absurd hw hne⟩
  · obtain ⟨a, ha⟩ := execWord_answer w hw s.buf s.fld
    exact ⟨_, _, ha s rfl rfl, ha t hb hf, a.apply_buf_congr hb, a.apply_fld_congr hf, fun _ => by simp⟩

/-- Settles O46, from the answer of a word: it is fixed by BUF and FLD, and its code says what becomes of FAULTED. -/
theorem faultedIsStickyAndUnread : Obligations.FaultedIsStickyAndUnread := by
  unfold Obligations.FaultedIsStickyAndUnread
  exact ⟨execWord_statusFaulted, fun s => by rw [State.applyReset_status]; decide,
    fun w s st => execWord_congr w (t := { s with status := st }) rfl rfl⟩

/-- Settles O1: the state after reset lists no byte of BUF, and an unlisted byte reads 0x00 (R33). -/
theorem resetLeavesEverythingZero : Obligations.ResetLeavesEverythingZero := by
  unfold Obligations.ResetLeavesEverythingZero
  exact ⟨fun i _ => Memory.read_cleared i, rfl, rfl, rfl, rfl⟩

end Sys2Proof.Machine
end

section
/-! SUPPORT. A word decodes to a command exactly when it is the command's encoding, and a row of the opcode map is
selected exactly by the encodings of its commands (30_encoding.md Part B). -/

namespace Sys2Proof

/-- A word is the encoding of a command when its four fields are the command's (R74). -/
theorem encode_eq_iff (i : Instr) (w : CommandWord) :
    encode i = w ↔ i.op = wordOp w ∧ i.fieldA = wordA w ∧ i.fieldB = wordB w ∧ i.fieldImm = wordImm w := by
  constructor
  · rintro rfl
    simp [encode]
  · rintro ⟨hop, ha, hb, himm⟩
    rw [encode, hop, ha, hb, himm, formatC_fields]

/-- The opcode map reads a command's own fields as the command, where the block has it (R76, R110). -/
theorem decodeFields_of_instr (hasHeader : Bool) (i : Instr) (hh : i.isHeader = true → hasHeader = true) :
    decodeFields hasHeader i.op i.fieldA i.fieldB i.fieldImm = .ok i := by
  cases i with
  | wrfield | rdfield | clrbuf | putbyte | getbyte | setfld | getfld | clrfld | getstat => rfl
  | enchdrReq | enchdrRsp | dechdrReq | dechdrRsp => rw [hh rfl]; rfl

/-- An arm of the opcode map that passes its must-be-zero check gives the arm's command (R77). -/
theorem encode_of_requireZero {ok : Bool} {op : BitVec 8} {i j : Instr} {w : CommandWord}
    (h : requireZero ok op j = .ok i) (hj : ok = true → encode j = w) : encode i = w := by
  obtain ⟨hok, rfl⟩ := requireZero_eq_ok h
  exact hj hok

/-- The arm of a command whose one operand is `a`. -/
theorem encode_of_requireOnlyA {op : BitVec 8} {a : BitVec 16} {b : BitVec 8} {imm : Word} {i j : Instr}
    (h : requireZero (b == 0 && imm == 0) op j = .ok i) (hj : encode j = formatC op a 0 0) :
    encode i = formatC op a b imm :=
  encode_of_requireZero h fun hz => by
    obtain ⟨hb, himm⟩ := Bool.and_eq_true_iff.1 hz
    rw [eq_of_beq hb, eq_of_beq himm, hj]

/-- The arm of a command without operands. -/
theorem encode_of_requireNoOperands {op : BitVec 8} {a : BitVec 16} {b : BitVec 8} {imm : Word} {i j : Instr}
    (h : requireZero (a == 0 && b == 0 && imm == 0) op j = .ok i) (hj : encode j = formatC op 0 0 0) :
    encode i = formatC op a b imm :=
  encode_of_requireZero h fun hz => by
    obtain ⟨hab, himm⟩ := Bool.and_eq_true_iff.1 hz
    obtain ⟨ha, hb⟩ := Bool.and_eq_true_iff.1 hab
    rw [eq_of_beq ha, eq_of_beq hb, eq_of_beq himm, hj]

/-- Whatever command the opcode map gives for four fields, they are that command's word: a field that is no operand is
zero (R76, R77). -/
theorem encode_of_decodeFields {hasHeader : Bool} {op : BitVec 8} {a : BitVec 16} {b : BitVec 8} {imm : Word}
    {i : Instr} (h : decodeFields hasHeader op a b imm = .ok i) : encode i = formatC op a b imm := by
  unfold decodeFields at h
  obtain ⟨rfl, h⟩ | ⟨-, h⟩ := ite_eq_cases h
  · cases h; rfl
  obtain ⟨rfl, h⟩ | ⟨-, h⟩ := ite_eq_cases h
  · exact encode_of_requireZero h fun himm => by rw [eq_of_beq himm]; rfl
  obtain ⟨rfl, h⟩ | ⟨-, h⟩ := ite_eq_cases h
  · exact encode_of_requireNoOperands h rfl
  obtain ⟨rfl, h⟩ | ⟨-, h⟩ := ite_eq_cases h
  · exact encode_of_requireZero h fun hb => by rw [eq_of_beq hb]; rfl
  obtain ⟨rfl, h⟩ | ⟨-, h⟩ := ite_eq_cases h
  · exact encode_of_requireOnlyA h rfl
  obtain ⟨rfl, h⟩ | ⟨-, h⟩ := ite_eq_cases h
  · exact encode_of_requireZero h fun hb => by rw [eq_of_beq hb]; rfl
  obtain ⟨rfl, h⟩ | ⟨-, h⟩ := ite_eq_cases h
  · exact encode_of_requireOnlyA h rfl
  obtain ⟨rfl, h⟩ | ⟨-, h⟩ := ite_eq_cases h
  · exact encode_of_requireNoOperands h rfl
  obtain ⟨rfl, h⟩ | ⟨-, h⟩ := ite_eq_cases h
  · exact encode_of_requireNoOperands h rfl
  obtain ⟨-, h⟩ | ⟨-, h⟩ := ite_eq_cases h
  · cases h
  obtain ⟨rfl, h⟩ | ⟨-, h⟩ := ite_eq_cases h
  · exact encode_of_requireNoOperands h rfl
  obtain ⟨rfl, h⟩ | ⟨-, h⟩ := ite_eq_cases h
  · exact encode_of_requireNoOperands h rfl
  obtain ⟨rfl, h⟩ | ⟨-, h⟩ := ite_eq_cases h
  · exact encode_of_requireNoOperands h rfl
  obtain ⟨rfl, h⟩ | ⟨-, h⟩ := ite_eq_cases h
  · exact encode_of_requireNoOperands h rfl
  cases h

/-- Decoding finds exactly the commands whose word it is given (R76, R77, R79). -/
theorem decode_eq_ok_iff (w : CommandWord) (i : Instr) : decode w = .ok i ↔ encode i = w := by
  constructor
  · intro h
    rw [encode_of_decodeFields h, formatC_fields]
  · intro h
    obtain ⟨hop, ha, hb, himm⟩ := (encode_eq_iff i w).1 h
    rw [decode, decodeFor, ← hop, ← ha, ← hb, ← himm]
    exact decodeFields_of_instr _ i fun _ => rfl

/-- The header opcodes are illegal in a block without the header commands (R78, R110). -/
theorem decodeFields_header_illegal {op : BitVec 8} (a : BitVec 16) (b : BitVec 8) (imm : Word)
    (h : op ∈ [0x10, 0x11, 0x12, 0x13]) : decodeFields false op a b imm = .error (.illegalOpcode op) := by
  simp only [List.mem_cons, List.not_mem_nil, or_false] at h
  obtain rfl | rfl | rfl | rfl := h <;> rfl

/-- The opcode of every command is one of the map's thirteen (R76). -/
theorem op_mem_opcodes (i : Instr) :
    i.op ∈ [0x01, 0x02, 0x03, 0x04, 0x05, 0x08, 0x09, 0x0A, 0x0F, 0x10, 0x11, 0x12, 0x13] := by
  cases i <;> simp [Instr.op]

/-- The mask of a field: all ones where the field must be zero, and zero where it is an operand (R76). -/
def fieldMask (n : Nat) (mustBeZero : Bool) : BitVec n := if mustBeZero then BitVec.allOnes n else 0

theorem and_fieldMask_eq_zero_iff {n : Nat} (x : BitVec n) (z : Bool) :
    x &&& fieldMask n z = 0 ↔ (z = true → x = 0) := by
  cases z <;> simp [fieldMask]

/-- Words in format C are equal when their fields are (R74). -/
theorem formatC_inj {op op' : BitVec 8} {a a' : BitVec 16} {b b' : BitVec 8} {imm imm' : Word} :
    formatC op a b imm = formatC op' a' b' imm' ↔ op = op' ∧ a = a' ∧ b = b' ∧ imm = imm' := by
  constructor
  · intro h
    have hop := congrArg wordOp h
    have ha := congrArg wordA h
    have hb := congrArg wordB h
    have himm := congrArg wordImm h
    simp only [wordOp_formatC, wordA_formatC, wordB_formatC, wordImm_formatC] at hop ha hb himm
    exact ⟨hop, ha, hb, himm⟩
  · rintro ⟨rfl, rfl, rfl, rfl⟩
    rfl

/-- A row whose mask keeps the opcode and whole fields is selected by its opcode with those fields zero (R76, R77). -/
theorem OpcodeRow.selects_iff {r : OpcodeRow} {op : BitVec 8} (za zb zimm : Bool)
    (hmatch : r.matchBits = formatC op 0 0 0)
    (hmask : r.maskBits = formatC (BitVec.allOnes 8) (fieldMask 16 za) (fieldMask 8 zb) (fieldMask 32 zimm))
    (w : CommandWord) : r.selects w = true ↔
      wordOp w = op ∧ (za = true → wordA w = 0) ∧ (zb = true → wordB w = 0) ∧ (zimm = true → wordImm w = 0) := by
  have hfields : w &&& r.maskBits = formatC (wordOp w) (wordA w &&& fieldMask 16 za) (wordB w &&& fieldMask 8 zb)
      (wordImm w &&& fieldMask 32 zimm) := by
    conv_lhs => rw [hmask, ← formatC_fields w, formatC_and, BitVec.and_allOnes]
  rw [OpcodeRow.selects, beq_iff_eq, hfields, hmatch, formatC_inj, and_fieldMask_eq_zero_iff,
    and_fieldMask_eq_zero_iff, and_fieldMask_eq_zero_iff]

/-- The opcode table holds the rows of the commands and no other (R76). -/
theorem mem_opcodeTable_iff (r : OpcodeRow) : r ∈ opcodeTable ↔ ∃ i : Instr, i.row = r := by
  constructor
  · intro h
    simp only [opcodeTable, List.mem_cons, List.not_mem_nil, or_false] at h
    obtain rfl | rfl | rfl | rfl | rfl | rfl | rfl | rfl | rfl | rfl | rfl | rfl | rfl := h <;> exact ⟨_, rfl⟩
  · rintro ⟨i, rfl⟩
    cases i <;> simp [opcodeTable, Instr.row]

/-- The word of a command selects the command's row (R76). -/
theorem row_selects_encode : ∀ i : Instr, i.row.selects (encode i) = true
  | .wrfield off len val => Laws.EncodeSelectsRow.wrfield off len val
  | .rdfield off len => Laws.EncodeSelectsRow.rdfield off len
  | .clrbuf => Laws.EncodeSelectsRow.clrbuf
  | .putbyte idx byte => Laws.EncodeSelectsRow.putbyte idx byte
  | .getbyte idx => Laws.EncodeSelectsRow.getbyte idx
  | .setfld idx val => Laws.EncodeSelectsRow.setfld idx val
  | .getfld idx => Laws.EncodeSelectsRow.getfld idx
  | .clrfld => Laws.EncodeSelectsRow.clrfld
  | .getstat => Laws.EncodeSelectsRow.getstat
  | .enchdrReq => Laws.EncodeSelectsRow.enchdrReq
  | .enchdrRsp => Laws.EncodeSelectsRow.enchdrRsp
  | .dechdrReq => Laws.EncodeSelectsRow.dechdrReq
  | .dechdrRsp => Laws.EncodeSelectsRow.dechdrRsp

/-- The match of a row is its opcode in format C, every other field zero (R76). -/
theorem row_matchBits (i : Instr) : i.row.matchBits = formatC i.op 0 0 0 := by
  cases i <;> simp only [Instr.row, Instr.op] <;> decide

/-- A field checked to be zero where it must be is the field with zero written there (R77). -/
theorem ite_zero_eq_self {n : Nat} {x : BitVec n} {z : Bool} (h : z = true → x = 0) :
    (if z then 0 else x) = x := by
  split
  · next hz => exact (h hz).symm
  · rfl

/-- A word that selects a command's row is the command's word when the operands are the word's fields (R76). -/
theorem encode_of_row_selects {i : Instr} {w : CommandWord} (za zb zimm : Bool)
    (hmask : i.row.maskBits = formatC (BitVec.allOnes 8) (fieldMask 16 za) (fieldMask 8 zb) (fieldMask 32 zimm))
    (ha : i.fieldA = if za then 0 else wordA w) (hb : i.fieldB = if zb then 0 else wordB w)
    (himm : i.fieldImm = if zimm then 0 else wordImm w) (h : i.row.selects w = true) : encode i = w := by
  obtain ⟨hop, hza, hzb, hzimm⟩ := (OpcodeRow.selects_iff za zb zimm (row_matchBits i) hmask w).1 h
  rw [ite_zero_eq_self hza] at ha
  rw [ite_zero_eq_self hzb] at hb
  rw [ite_zero_eq_self hzimm] at himm
  exact (encode_eq_iff i w).2 ⟨hop.symm, ha, hb, himm⟩

/-- A word that selects the row of a command is the word of a command of that row (R76, R77). -/
theorem exists_encode_of_row_selects (w : CommandWord) : ∀ j : Instr, j.row.selects w = true →
    ∃ i : Instr, i.row = j.row ∧ encode i = w
  | .wrfield _ _ _, h => ⟨.wrfield (wordA w) (wordB w) (wordImm w), rfl,
      encode_of_row_selects false false false rfl rfl rfl rfl h⟩
  | .rdfield _ _, h => ⟨.rdfield (wordA w) (wordB w), rfl,
      encode_of_row_selects false false true rfl rfl rfl rfl h⟩
  | .clrbuf, h => ⟨_, rfl, encode_of_row_selects true true true rfl rfl rfl rfl h⟩
  | .putbyte _ _, h => ⟨.putbyte (wordA w) (wordImm w), rfl,
      encode_of_row_selects false true false rfl rfl rfl rfl h⟩
  | .getbyte _, h => ⟨.getbyte (wordA w), rfl, encode_of_row_selects false true true rfl rfl rfl rfl h⟩
  | .setfld _ _, h => ⟨.setfld (wordA w) (wordImm w), rfl,
      encode_of_row_selects false true false rfl rfl rfl rfl h⟩
  | .getfld _, h => ⟨.getfld (wordA w), rfl, encode_of_row_selects false true true rfl rfl rfl rfl h⟩
  | .clrfld, h => ⟨_, rfl, encode_of_row_selects true true true rfl rfl rfl rfl h⟩
  | .getstat, h => ⟨_, rfl, encode_of_row_selects true true true rfl rfl rfl rfl h⟩
  | .enchdrReq, h => ⟨_, rfl, encode_of_row_selects true true true rfl rfl rfl rfl h⟩
  | .enchdrRsp, h => ⟨_, rfl, encode_of_row_selects true true true rfl rfl rfl rfl h⟩
  | .dechdrReq, h => ⟨_, rfl, encode_of_row_selects true true true rfl rfl rfl rfl h⟩
  | .dechdrRsp, h => ⟨_, rfl, encode_of_row_selects true true true rfl rfl rfl rfl h⟩

/-- A row of the table is selected exactly by the words that decode to one of its commands (R76, R79). -/
theorem selects_iff_exists_decode {r : OpcodeRow} (hr : r ∈ opcodeTable) (w : CommandWord) :
    r.selects w = true ↔ ∃ i, decode w = .ok i ∧ i.row = r := by
  constructor
  · intro h
    obtain ⟨j, rfl⟩ := (mem_opcodeTable_iff r).1 hr
    obtain ⟨i, hrow, hw⟩ := exists_encode_of_row_selects w j h
    exact ⟨i, (decode_eq_ok_iff w i).2 hw, hrow⟩
  · rintro ⟨i, hd, rfl⟩
    rw [← (decode_eq_ok_iff w i).1 hd]
    exact row_selects_encode i

end Sys2Proof
end

section
/-! SUPPORT. The reserved bits of the header layouts: no field of a layout touches them, so ENCHDR leaves them 0 and
DECHDR does not read them (30_encoding.md R64). -/

namespace Sys2Proof.Machine

/-- A bit of a named field is not reserved (R64). -/
theorem isReserved_of_mem_field {l : Layout} {d : FieldDesc} (hd : d ∈ layoutFields l) {k : Nat} (hlo : d.off ≤ k)
    (hhi : k < d.off + d.len) : isReserved l k = false := by
  have houtside : ∀ e ∈ layoutFields l,
      e.off + e.len ≤ (layoutReserved l).1 ∨ (layoutReserved l).1 + (layoutReserved l).2 ≤ e.off := by
    cases l <;> decide
  have := houtside d hd
  simp only [isReserved, decide_eq_false_iff_not]
  omega

/-- Every bit of the header lies in one named field, or in none if it is reserved (R64). -/
theorem fields_covering_bit (l : Layout) : ∀ k < 96,
    ((layoutFields l).filter fun d => decide (d.off ≤ k ∧ k < d.off + d.len)).length =
      if isReserved l k then 0 else 1 := by
  cases l <;> decide

/-- The writes of ENCHDR leave a bit outside their fields as it was. -/
theorem bit_writeHeaderFields_outside (k : Nat) : ∀ (ps : List (FieldDesc × Word)) (m : Memory), m.wf = true →
    (∀ p ∈ ps, p.1.off + p.1.len ≤ Config.bufBits ∧ ¬(p.1.off ≤ k ∧ k < p.1.off + p.1.len)) →
    (writeHeaderFields m ps).bit k = m.bit k
  | [], _, _, _ => rfl
  | (d, v) :: ps, m, hwf, h => by
    obtain ⟨⟨hin, hout⟩, hps⟩ := List.forall_mem_cons.1 h
    rw [writeHeaderFields, bit_writeHeaderFields_outside k ps _ (Memory.wf_writeField _ _ _ m hwf hin) hps,
      Memory.bit_writeField _ _ _ _ m hwf hin, if_neg hout]

/-- A header built by ENCHDR is 0 in its reserved bits (R64, R111, R112). -/
theorem bit_encodeHeaderBuf_reserved {l : Layout} (f : FieldFile) {k : Nat} (hk : isReserved l k = true) :
    (encodeHeaderBuf l f).bit k = false := by
  rw [encodeHeaderBuf, bit_writeHeaderFields_outside k _ _ Memory.wf_cleared]
  · simp [Memory.bit]
  · intro p hp
    have hd := (List.of_mem_zip hp).1
    refine ⟨(layoutFields_inside l p.1 hd).1, fun hfield => ?_⟩
    rw [isReserved_of_mem_field hd hfield.1 hfield.2] at hk
    cases hk

/-- DECHDR gives the same registers from buffers that agree in every bit that is not reserved, whatever the registers
held before (R64, R113, R114). -/
theorem decodeHeaderFld_congr {l : Layout} {m n : Memory} (f g : FieldFile)
    (h : ∀ k, k < 96 → isReserved l k = false → m.bit k = n.bit k) :
    decodeHeaderFld l m f = decodeHeaderFld l n g := by
  have hfields : ∀ d ∈ layoutFields l, m.readField d.off d.len = n.readField d.off d.len := fun d hd =>
    Memory.readField_congr m n _ _ fun k hlo hhi =>
      h k (lt_of_lt_of_le hhi (layoutFields_inside l d hd).1) (isReserved_of_mem_field hd hlo hhi)
  cases l with
  | req =>
    simp only [layoutFields, List.forall_mem_cons] at hfields
    obtain ⟨h0, h1, h2, h3, h4, -⟩ := hfields
    rw [decodeHeaderFld_req, decodeHeaderFld_req, h0, h1, h2, h3, h4]
  | rsp =>
    simp only [layoutFields, List.forall_mem_cons] at hfields
    obtain ⟨h0, h1, h2, h3, h4, -⟩ := hfields
    rw [decodeHeaderFld_rsp, decodeHeaderFld_rsp, h0, h1, h2, h3, h4]

theorem exec_enchdrOf (l : Layout) (s : State) : exec (enchdrOf l) s = .next (s.encodeHeader l) := by
  cases l <;> rfl

theorem exec_dechdrOf (l : Layout) (s : State) : exec (dechdrOf l) s = .next (s.decodeHeader l) := by
  cases l <;> rfl

/-- A fault is no good end (R186). -/
theorem not_endsOk_raiseFault (s : State) (k : FaultKind) (d : Word) : ¬ EndsOk s (s.raiseFault k) d := by
  rintro ⟨hresponse, -, -, -⟩
  exact k.code_ne_zero (congrArg Response.code (Option.some.inj hresponse))

/-- An ENCHDR that succeeds leaves the header of its registers in BUF (R111, R112). -/
theorem buf_of_enchdr_endsOk {l : Layout} {s t : State} {d : Word} (h : exec (enchdrOf l) s = .next t)
    (hok : EndsOk s t d) : t.buf = encodeHeaderBuf l s.fld := by
  rw [exec_enchdrOf, Host.Outcome.next.injEq] at h
  obtain ⟨-, rfl⟩ | ⟨-, rfl⟩ := encodeHeader_cases l s t h
  · rfl
  · exact absurd hok (not_endsOk_raiseFault s _ d)

theorem fld_of_dechdr {l : Layout} {s t : State} (h : exec (dechdrOf l) s = .next t) :
    t.fld = decodeHeaderFld l s.buf s.fld := by
  rw [exec_dechdrOf, Host.Outcome.next.injEq] at h
  rw [← h]
  rfl

end Sys2Proof.Machine
end

section
/-! The statements of 30_encoding.md. -/

namespace Sys2Proof.Machine

/-- A word that decodes to no command takes IllegalCommand (R184). -/
theorem endsFault_of_decode_error {w : CommandWord} {e : DecodeError} (h : decode w = .error e) (s : State) :
    ∃ t, execWord w s = .next t ∧ EndsFault s t .illegalCommand :=
  ⟨_, execWord_of_decode_error h s, endsFault_raiseFault s _⟩

/-- A word whose opcode is outside the map takes IllegalCommand (R78). -/
theorem endsFault_of_wordOp_not_mem {w : CommandWord} (s : State)
    (h : wordOp w ∉ [0x01, 0x02, 0x03, 0x04, 0x05, 0x08, 0x09, 0x0A, 0x0F, 0x10, 0x11, 0x12, 0x13]) :
    ∃ t, execWord w s = .next t ∧ EndsFault s t .illegalCommand := by
  cases hd : decode w with
  | error e => exact endsFault_of_decode_error hd s
  | ok i =>
    obtain ⟨hop, -, -, -⟩ := (encode_eq_iff i w).1 ((decode_eq_ok_iff w i).1 hd)
    exact absurd (hop ▸ op_mem_opcodes i) h

/-- Settles O11: the rows a word selects are the rows of the commands it decodes to, and it decodes to one at most. -/
theorem everyWordSelectsOneRowOrIsIllegal : Obligations.EveryWordSelectsOneRowOrIsIllegal := by
  unfold Obligations.EveryWordSelectsOneRowOrIsIllegal
  intro w s
  cases hd : decode w with
  | ok i =>
    have hrow : i.row ∈ opcodeTable := (mem_opcodeTable_iff _).2 ⟨i, rfl⟩
    refine .inl ⟨i.row, i, hrow, (selects_iff_exists_decode hrow w).2 ⟨i, hd, rfl⟩, fun q hq hsel => ?_, rfl, rfl,
      execWord_of_decode_ok hd s⟩
    obtain ⟨j, hj, rfl⟩ := (selects_iff_exists_decode hq w).1 hsel
    rw [hd, Except.ok.injEq] at hj
    rw [hj]
  | error e =>
    refine .inr ⟨fun r hr => Bool.eq_false_iff.2 fun hsel => ?_, endsFault_of_decode_error hd s⟩
    obtain ⟨j, hj, -⟩ := (selects_iff_exists_decode hr w).1 hsel
    rw [hd] at hj
    cases hj

/-- Settles O12: every decoded command has an opcode of the map, 0x00 is none of them, and a block of another size
has no header commands. -/
theorem opcodesOutsideTheMapAreIllegal : Obligations.OpcodesOutsideTheMapAreIllegal := by
  unfold Obligations.OpcodesOutsideTheMapAreIllegal
  refine ⟨fun w s h => endsFault_of_wordOp_not_mem s h, fun s => endsFault_of_wordOp_not_mem s (by decide),
    fun nbytes w hn hop => ?_⟩
  have hsize : (nbytes == Config.hdrBytes) = false := beq_eq_false_iff_ne.2 hn
  rw [decodeFor, hsize]
  exact decodeFields_header_illegal _ _ _ hop

/-- Settles O41: no named field touches a reserved bit, so ENCHDR leaves it as the cleared buffer has it, and the
fields DECHDR reads do not depend on it. -/
theorem reservedBitsAreZeroAndIgnored : Obligations.ReservedBitsAreZeroAndIgnored := by
  unfold Obligations.ReservedBitsAreZeroAndIgnored
  refine ⟨fields_covering_bit, rfl, rfl, fun l s t h hok k hk => ?_, fun l s1 s2 t1 t2 hbits h1 h2 => ?_⟩
  · rw [buf_of_enchdr_endsOk h hok]
    exact bit_encodeHeaderBuf_reserved _ hk
  · rw [fld_of_dechdr h1, fld_of_dechdr h2]
    exact decodeHeaderFld_congr _ _ hbits

end Sys2Proof.Machine
end

section
/-! SUPPORT. What WRFIELD and RDFIELD do, said once: one equation for each way they end, what a successful WRFIELD
leaves in BUF, and the value RDFIELD reads as a sum of bits (40_bitfield.md). -/

namespace Sys2Proof.Machine

/-- The words of an opcode run its command, or are illegal, as the decoder's must-be-zero check says (R77). -/
theorem wordRuns_of_decode {op : BitVec 8} {zero : CommandWord → Bool} {i : CommandWord → Instr}
    (h : ∀ w, wordOp w = op → decode w = requireZero (zero w) op (i w)) : WordRuns op zero i := by
  intro w s hop
  have hdecode := h w hop
  refine ⟨fun hz => ?_, fun hz => ?_⟩
  · rw [hz] at hdecode
    exact execWord_of_decode_ok hdecode s
  · rw [hz] at hdecode
    exact endsFault_of_decode_error hdecode s

/-- WRFIELD's word has no must-be-zero field (R76). -/
theorem decode_of_wordOp_wrfield {w : CommandWord} (h : wordOp w = 0x01) :
    decode w = requireZero true 0x01 (.wrfield (wordA w) (wordB w) (wordImm w)) := by
  simp [decode, decodeFor, decodeFields, h, requireZero]

/-- RDFIELD's word has `imm` zero (R76). -/
theorem decode_of_wordOp_rdfield {w : CommandWord} (h : wordOp w = 0x02) :
    decode w = requireZero (wordImm w == 0) 0x02 (.rdfield (wordA w) (wordB w)) := by
  simp [decode, decodeFor, decodeFields, h]

section
variable (s : State) {off : BitVec 16} {len : BitVec 8} {val : Word}

theorem exec_wrfield_of_fieldFault {k : FaultKind} (h : fieldFault Config.nbytes off.toNat len.toNat = some k) :
    exec (.wrfield off len val) s = .next (s.raiseFault k) := by
  simp [exec, execWrfield, h]

theorem exec_rdfield_of_fieldFault {k : FaultKind} (h : fieldFault Config.nbytes off.toNat len.toNat = some k) :
    exec (.rdfield off len) s = .next (s.raiseFault k) := by
  simp [exec, execRdfield, h]

/-- A value that does not fit its field writes nothing (R90, R181). -/
theorem exec_wrfield_of_not_fits (hlen : len.toNat ≤ 32) (hin : off.toNat + len.toNat ≤ 96)
    (hval : 2 ^ len.toNat ≤ val.toNat) : exec (.wrfield off len val) s = .next (s.raiseFault .valueError) := by
  have haddr := (fieldFault_eq_none_iff _ _).2 ⟨hlen, hin⟩
  simp [exec, execWrfield, haddr, valueFits_iff, hval]

/-- A legal WRFIELD writes its field and nothing else (R90). -/
theorem exec_wrfield_of_legal (hlen : len.toNat ≤ 32) (hin : off.toNat + len.toNat ≤ 96)
    (hval : val.toNat < 2 ^ len.toNat) : exec (.wrfield off len val) s =
      .next ((s.setBuf (s.buf.writeField val.toNat off.toNat len.toNat)).respond 0) := by
  have haddr := (fieldFault_eq_none_iff _ _).2 ⟨hlen, hin⟩
  simp [exec, execWrfield, haddr, valueFits_iff, hval]

/-- A legal RDFIELD responds with the value of its field (R91). -/
theorem exec_rdfield_of_legal (hlen : len.toNat ≤ 32) (hin : off.toNat + len.toNat ≤ 96) :
    exec (.rdfield off len) s = .next (s.respond (BitVec.ofNat 32 (s.buf.readField off.toNat len.toNat))) := by
  have haddr := (fieldFault_eq_none_iff _ _).2 ⟨hlen, hin⟩
  simp [exec, execRdfield, haddr]

/-- A WRFIELD that ends well was legal, and left its field written in BUF (R90). -/
theorem wrfield_endsOk_cases {s t : State} {d : Word} (h : exec (.wrfield off len val) s = .next t)
    (hok : EndsOk s t d) : len.toNat ≤ 32 ∧ off.toNat + len.toNat ≤ 96 ∧ val.toNat < 2 ^ len.toNat ∧
      t.buf = s.buf.writeField val.toNat off.toNat len.toNat := by
  cases haddr : fieldFault Config.nbytes off.toNat len.toNat with
  | some k =>
    rw [exec_wrfield_of_fieldFault s haddr, Host.Outcome.next.injEq] at h
    exact absurd (h ▸ hok) (not_endsOk_raiseFault s k d)
  | none =>
    obtain ⟨hlen, hin⟩ := (fieldFault_eq_none_iff _ _).1 haddr
    by_cases hval : val.toNat < 2 ^ len.toNat
    · rw [exec_wrfield_of_legal s hlen hin hval, Host.Outcome.next.injEq] at h
      exact ⟨hlen, hin, hval, by rw [← h]; rfl⟩
    · rw [exec_wrfield_of_not_fits s hlen hin (not_lt.1 hval), Host.Outcome.next.injEq] at h
      exact absurd (h ▸ hok) (not_endsOk_raiseFault s _ d)

/-- RDFIELD gives one response, a value or a fault, in two states whose field has the same value (R91). -/
theorem exec_rdfield_response_congr {s t : State}
    (h : t.buf.readField off.toNat len.toNat = s.buf.readField off.toNat len.toNat) :
    ∃ u v r, exec (.rdfield off len) s = .next u ∧ exec (.rdfield off len) t = .next v ∧
      u.response = some r ∧ v.response = some r := by
  cases haddr : fieldFault Config.nbytes off.toNat len.toNat with
  | some k =>
    exact ⟨_, _, _, exec_rdfield_of_fieldFault s haddr, exec_rdfield_of_fieldFault t haddr, rfl, rfl⟩
  | none =>
    obtain ⟨hlen, hin⟩ := (fieldFault_eq_none_iff _ _).1 haddr
    exact ⟨_, _, _, exec_rdfield_of_legal s hlen hin, exec_rdfield_of_legal t hlen hin, rfl, by rw [h]; rfl⟩

end

/-- A byte depends on its own eight bits only (R41). -/
theorem Memory.read_congr (m n : Memory) (i : Nat) (h : ∀ k, 8 * i ≤ k → k < 8 * i + 8 → m.bit k = n.bit k) :
    m.read i = n.read i := by
  refine BitVec.eq_of_getLsbD_eq fun j hj => ?_
  have hbit := h (8 * i + (7 - j)) (by omega) (by omega)
  rwa [Memory.bit, Memory.bit, show (8 * i + (7 - j)) / 8 = i by omega,
    show 7 - (8 * i + (7 - j)) % 8 = j by omega] at hbit

/-- RDFIELD's loop shifts what it has by `len` bits and adds the field's bits, the first the heaviest (R91). -/
theorem Memory.readFieldFrom_eq_sum (m : Memory) : ∀ (len off v : Nat),
    m.readFieldFrom len off v =
      2 ^ len * v + ∑ i ∈ Finset.range len, (m.bit (off + i)).toNat * 2 ^ (len - 1 - i)
  | 0, _, v => by simp [Memory.readFieldFrom]
  | len + 1, off, v => by
    have hshift : ∀ i, (m.bit (off + 1 + i)).toNat * 2 ^ (len - 1 - i) =
        (m.bit (off + (i + 1))).toNat * 2 ^ (len + 1 - 1 - (i + 1)) := fun i => by
      rw [show off + 1 + i = off + (i + 1) by omega, show len - 1 - i = len + 1 - 1 - (i + 1) by omega]
    calc m.readFieldFrom (len + 1) off v
        = 2 ^ len * (2 * v + (m.bit off).toNat) +
            ∑ i ∈ Finset.range len, (m.bit (off + 1 + i)).toNat * 2 ^ (len - 1 - i) :=
          Memory.readFieldFrom_eq_sum m len (off + 1) _
      _ = _ := by
          rw [Finset.sum_congr rfl fun i _ => hshift i, Finset.sum_range_succ', Nat.add_zero off, Nat.sub_zero,
            Nat.add_sub_cancel]
          ring

/-- The value of a field is the sum of its bits, the first the heaviest (R91). -/
theorem Memory.readField_eq_sum (m : Memory) (off len : Nat) :
    m.readField off len = ∑ i ∈ Finset.range len, (m.bit (off + i)).toNat * 2 ^ (len - 1 - i) := by
  rw [Memory.readField, m.readFieldFrom_eq_sum, Nat.mul_zero, Nat.zero_add]

/-- RDFIELD's data loses nothing of the value of a field of up to 32 bits (R91). -/
theorem toNat_ofNat_readField (m : Memory) (off : Nat) {len : Nat} (hlen : len ≤ 32) :
    (BitVec.ofNat 32 (m.readField off len)).toNat = m.readField off len :=
  (BitVec.toNat_ofNat _ _).trans
    (Nat.mod_eq_of_lt (lt_of_lt_of_le (m.readField_lt off len) (Nat.pow_le_pow_right (by decide) hlen)))

end Sys2Proof.Machine
end

section
/-! The statements of 40_bitfield.md. -/

namespace Sys2Proof.Machine

/-- Settles O15: the address check and the value check decide between the three faults and WRFIELD's loop. -/
theorem wrfieldWritesItsBitsOrFaults : Obligations.WrfieldWritesItsBitsOrFaults := by
  unfold Obligations.WrfieldWritesItsBitsOrFaults
  refine ⟨wordRuns_of_decode fun w => decode_of_wordOp_wrfield, fun s off len val =>
    ⟨fun hwf hlen hin hval => ?_, fun hlen => ?_, fun hlen hout => ?_, fun hlen hin hval => ?_⟩⟩
  · exact ⟨_, exec_wrfield_of_legal s hlen hin hval, endsOk_respond s _ 0 rfl, rfl,
      fun k => Memory.bit_writeField _ k _ _ s.buf hwf hin⟩
  · exact ⟨_, exec_wrfield_of_fieldFault s ((fieldFault_lengthError_iff _ _).2 hlen), endsFault_raiseFault s _⟩
  · exact ⟨_, exec_wrfield_of_fieldFault s ((fieldFault_rangeError_iff _ _).2 ⟨hlen, hout⟩),
      endsFault_raiseFault s _⟩
  · exact ⟨_, exec_wrfield_of_not_fits s hlen hin hval, endsFault_raiseFault s _⟩

/-- Settles O16: RDFIELD's loop computes the sum, which fits the 32 bits of data. -/
theorem rdfieldReadsItsBitsOrFaults : Obligations.RdfieldReadsItsBitsOrFaults := by
  unfold Obligations.RdfieldReadsItsBitsOrFaults
  refine ⟨wordRuns_of_decode fun w => decode_of_wordOp_rdfield, fun s off len =>
    ⟨fun hlen hin => ?_, fun hlen => ?_, fun hlen hout => ?_⟩⟩
  · have hdata := toNat_ofNat_readField s.buf off.toNat hlen
    exact ⟨_, _, exec_rdfield_of_legal s hlen hin, endsOk_respond s _ _ rfl, rfl, rfl,
      hdata.trans (s.buf.readField_eq_sum _ _), hdata.trans_lt (s.buf.readField_lt _ _)⟩
  · exact ⟨_, exec_rdfield_of_fieldFault s ((fieldFault_lengthError_iff _ _).2 hlen), endsFault_raiseFault s _⟩
  · exact ⟨_, exec_rdfield_of_fieldFault s ((fieldFault_rangeError_iff _ _).2 ⟨hlen, hout⟩),
      endsFault_raiseFault s _⟩

/-- Settles O28: RDFIELD's loop reads back the bits WRFIELD's loop wrote. -/
theorem fieldReadsBackAsWritten : Obligations.FieldReadsBackAsWritten := by
  unfold Obligations.FieldReadsBackAsWritten
  intro s off len val hwf hlen hin hval
  refine ⟨_, _, exec_wrfield_of_legal s hlen hin hval, endsOk_respond s _ 0 rfl,
    exec_rdfield_of_legal _ hlen hin, ?_⟩
  rw [State.respond_response, State.respond_buf, State.setBuf_buf,
    Memory.readField_writeField _ _ _ _ hwf hin hval, BitVec.ofNat_toNat, BitVec.setWidth_eq]

/-- Settles O29: no bit outside the field changes, and bytes and fields depend on their own bits only. -/
theorem fieldWriteLeavesTheRestAlone : Obligations.FieldWriteLeavesTheRestAlone := by
  unfold Obligations.FieldWriteLeavesTheRestAlone
  intro s t off len val hwf h hok
  obtain ⟨-, hin, -, hbuf⟩ := wrfield_endsOk_cases h hok
  have hbits : ∀ k, k < off.toNat ∨ off.toNat + len.toNat ≤ k → t.buf.bit k = s.buf.bit k := fun k hk => by
    rw [hbuf, Memory.bit_writeField _ k _ _ s.buf hwf hin, if_neg (by omega)]
  refine ⟨hbits, fun i hi => ?_, fun off2 len2 hdisjoint => ?_⟩
  · exact Memory.read_congr _ _ i fun k hlo hhi => hbits k (by omega)
  · exact exec_rdfield_response_congr (Memory.readField_congr _ _ _ _ fun k hlo hhi => hbits k (by omega))

/-- Settles O32: a field of length 0 lies in BUF when `off <= 96`, only 0 fits it, and both loops do nothing. -/
theorem zeroLengthFields : Obligations.ZeroLengthFields := by
  unfold Obligations.ZeroLengthFields
  intro s off val
  have hlen : (0 : BitVec 8).toNat ≤ 32 := by decide
  have hrange (h : 96 < off.toNat) : fieldFault Config.nbytes off.toNat (0 : BitVec 8).toNat = some .rangeError :=
    (fieldFault_rangeError_iff _ _).2 ⟨hlen, h⟩
  refine ⟨fun hin => ?_, fun hin hval => ?_, fun hout => ?_, fun hin => ?_, fun hout => ?_⟩
  · exact ⟨_, exec_wrfield_of_legal s hlen hin (by decide), endsOk_respond s _ 0 rfl, rfl, rfl⟩
  · exact ⟨_, exec_wrfield_of_not_fits s hlen hin hval, endsFault_raiseFault s _⟩
  · exact ⟨_, exec_wrfield_of_fieldFault s (hrange hout), endsFault_raiseFault s _⟩
  · exact ⟨_, exec_rdfield_of_legal s hlen hin, endsOk_respond s _ _ rfl, rfl, rfl⟩
  · exact ⟨_, exec_rdfield_of_fieldFault s (hrange hout), endsFault_raiseFault s _⟩

end Sys2Proof.Machine
end


section
/-! SUPPORT. A field read as its parts: adjoining fields, and the bytes and half bytes a field is made of (20_memory.md
R41, R43). -/

namespace Sys2Proof.Machine

/-- A field is its first part, shifted past its second part, plus its second part. -/
theorem Memory.readField_add (m : Memory) (off a b : Nat) :
    m.readField off (a + b) = m.readField off a * 2 ^ b + m.readField (off + a) b := by
  have hfirst : ∀ i ∈ Finset.range a, (m.bit (off + i)).toNat * 2 ^ (a + b - 1 - i) =
      (m.bit (off + i)).toNat * 2 ^ (a - 1 - i) * 2 ^ b := fun i hi => by
    have hia := Finset.mem_range.1 hi
    rw [mul_assoc, ← pow_add, show a - 1 - i + b = a + b - 1 - i by omega]
  have hsecond : ∀ i ∈ Finset.range b, (m.bit (off + (a + i))).toNat * 2 ^ (a + b - 1 - (a + i)) =
      (m.bit (off + a + i)).toNat * 2 ^ (b - 1 - i) := fun i _ => by
    rw [Nat.add_assoc, show a + b - 1 - (a + i) = b - 1 - i by omega]
  rw [m.readField_eq_sum, m.readField_eq_sum, m.readField_eq_sum, Finset.sum_range_add, Finset.sum_mul,
    Finset.sum_congr rfl hfirst, Finset.sum_congr rfl hsecond]

/-- A field whose bits are all 0 reads 0. -/
theorem Memory.readField_eq_zero (m : Memory) (off len : Nat)
    (h : ∀ k, off ≤ k → k < off + len → m.bit k = false) : m.readField off len = 0 := by
  rw [m.readField_eq_sum]
  refine Finset.sum_eq_zero fun i hi => ?_
  rw [h _ (by omega) (Nat.add_lt_add_left (Finset.mem_range.1 hi) off), Bool.toNat_false, Nat.zero_mul]

/-- The eight bits of byte `i`, the first the heaviest, are the byte (R41). -/
theorem Memory.readField_byte (m : Memory) (i : Nat) : m.readField (8 * i) 8 = (m.read i).toNat :=
  Nat.eq_of_testBit_eq fun j => by
    rw [m.testBit_readField]
    by_cases hj : j < 8
    · rw [Memory.bit, show (8 * i + 8 - 1 - j) / 8 = i by omega, show 7 - (8 * i + 8 - 1 - j) % 8 = j by omega]
      simp [hj, BitVec.testBit_toNat]
    · rw [BitVec.testBit_toNat, BitVec.getLsbD_of_ge _ _ (by omega)]
      simp [hj]

/-- A byte is its high half and its low half, four bits each. -/
theorem Memory.readField_halves (m : Memory) (i : Nat) :
    m.readField (8 * i) 4 = (m.read i).toNat / 16 ∧ m.readField (8 * i + 4) 4 = (m.read i).toNat % 16 := by
  have hbyte := m.readField_byte i
  have hlow := m.readField_lt (8 * i + 4) 4
  rw [m.readField_add (8 * i) 4 4] at hbyte
  omega

theorem Memory.readField_high (m : Memory) (i : Nat) : m.readField (8 * i) 4 = (m.read i).toNat / 16 :=
  (m.readField_halves i).1

theorem Memory.readField_low (m : Memory) (i : Nat) : m.readField (8 * i + 4) 4 = (m.read i).toNat % 16 :=
  (m.readField_halves i).2

/-- Two bytes are one big-endian number (R43). -/
theorem Memory.readField_two_bytes (m : Memory) (i : Nat) :
    m.readField (8 * i) 16 = (m.read i).toNat * 2 ^ 8 + (m.read (i + 1)).toNat := by
  rw [m.readField_add (8 * i) 8 8, m.readField_byte, ← Nat.mul_succ, m.readField_byte]

/-- Three bytes are one big-endian number (R43). -/
theorem Memory.readField_three_bytes (m : Memory) (i : Nat) : m.readField (8 * i) 24 =
    (m.read i).toNat * 2 ^ 16 + (m.read (i + 1)).toNat * 2 ^ 8 + (m.read (i + 2)).toNat := by
  rw [m.readField_add (8 * i) 8 16, m.readField_byte, ← Nat.mul_succ, m.readField_two_bytes, ← Nat.add_assoc]

/-- Four bytes are one big-endian number (R43). -/
theorem Memory.readField_four_bytes (m : Memory) (i : Nat) : m.readField (8 * i) 32 =
    (m.read i).toNat * 2 ^ 24 + (m.read (i + 1)).toNat * 2 ^ 16 + (m.read (i + 2)).toNat * 2 ^ 8 +
      (m.read (i + 3)).toNat := by
  rw [m.readField_add (8 * i) 8 24, m.readField_byte, ← Nat.mul_succ, m.readField_three_bytes, ← Nat.add_assoc,
    ← Nat.add_assoc]

/-- A slice of a word as a quotient and a remainder. -/
theorem toNat_extractLsb'_eq_div_mod {w : Nat} (x : BitVec w) (lo n : Nat) :
    (x.extractLsb' lo n).toNat = x.toNat / 2 ^ lo % 2 ^ n := by
  rw [BitVec.extractLsb'_toNat, Nat.shiftRight_eq_div_pow]

/-- The three low bytes of a word that is given as a sum with its bytes. -/
theorem low_bytes_of_word {x : Word} {n : Nat} {b2 b1 b0 : Byte}
    (h : x.toNat = n * 2 ^ 24 + b2.toNat * 2 ^ 16 + b1.toNat * 2 ^ 8 + b0.toNat) :
    b2 = x.extractLsb' 16 8 ∧ b1 = x.extractLsb' 8 8 ∧ b0 = x.extractLsb' 0 8 := by
  refine ⟨?_, ?_, ?_⟩ <;>
  · apply BitVec.eq_of_toNat_eq
    rw [toNat_extractLsb'_eq_div_mod]
    omega

/-- The four bytes of a word that is given as their sum. -/
theorem bytes_of_word {x : Word} {b3 b2 b1 b0 : Byte}
    (h : x.toNat = b3.toNat * 2 ^ 24 + b2.toNat * 2 ^ 16 + b1.toNat * 2 ^ 8 + b0.toNat) :
    b3 = x.extractLsb' 24 8 ∧ b2 = x.extractLsb' 16 8 ∧ b1 = x.extractLsb' 8 8 ∧ b0 = x.extractLsb' 0 8 := by
  refine ⟨BitVec.eq_of_toNat_eq ?_, low_bytes_of_word h⟩
  rw [toNat_extractLsb'_eq_div_mod]
  omega

end Sys2Proof.Machine
end

section
/-! SUPPORT. The header commands: their words, the ways they end, the registers as numbers made of the header's bytes,
and DECHDR after ENCHDR (41_header.md). -/

namespace Sys2Proof.Machine

/-- The words of the four header commands have no operands (R76, R77). -/
theorem wordRuns_of_isHeader {i : Instr} (hi : i.isHeader = true) : WordRuns i.op noOperands fun _ => i :=
  wordRuns_of_decode fun w hop => by
    cases i with
    | enchdrReq | enchdrRsp | dechdrReq | dechdrRsp =>
      simp only [Instr.op] at hop
      simp [decode, decodeFor, decodeFields, hop, noOperands, Instr.op, Config.nbytes, Config.hdrBytes]
    | _ => cases hi

/-- Registers that fit the layout become the header in BUF (R111, R112). -/
theorem enchdrOf_endsOk {l : Layout} {s : State} (h : fieldsFit l s.fld = true) :
    ∃ t, exec (enchdrOf l) s = .next t ∧ EndsOk s t 0 ∧ t.fld = s.fld ∧ t.buf = encodeHeaderBuf l s.fld :=
  ⟨(s.setBuf (encodeHeaderBuf l s.fld)).respond 0, by rw [exec_enchdrOf, State.encodeHeader, if_pos h],
    endsOk_respond s _ 0 rfl, rfl, rfl⟩

/-- A register that does not fit makes ENCHDR fault (R111, R112, R181). -/
theorem enchdrOf_endsFault {l : Layout} {s : State} (h : ¬ fieldsFit l s.fld = true) :
    ∃ t, exec (enchdrOf l) s = .next t ∧ EndsFault s t .valueError :=
  ⟨_, by rw [exec_enchdrOf, State.encodeHeader, if_neg h], endsFault_raiseFault s _⟩

/-- DECHDR succeeds from every state (R113, R114). -/
theorem dechdrOf_endsOk (l : Layout) (s : State) : ∃ t, exec (dechdrOf l) s = .next t ∧ EndsOk s t 0 ∧
    t.buf = s.buf ∧ t.fld = decodeHeaderFld l s.buf s.fld :=
  ⟨_, exec_dechdrOf l s, endsOk_respond s _ 0 rfl, rfl, rfl⟩

/-- The registers as a request header's bytes give them (R113). -/
structure RequestRegisters (m : Memory) (f : FieldFile) : Prop where
  version : f.fld0.toNat = (m.read 0).toNat / 16
  requestType : f.fld1.toNat = (m.read 3).toNat
  timestamp : f.fld2.toNat = (m.read 4).toNat * 2 ^ 24 + (m.read 5).toNat * 2 ^ 16 + (m.read 6).toNat * 2 ^ 8 +
    (m.read 7).toNat
  imageTypeCode : f.fld3.toNat = (m.read 8).toNat / 16
  imageNameLength : f.fld4.toNat = (m.read 8).toNat % 16 * 2 ^ 24 + (m.read 9).toNat * 2 ^ 16 +
    (m.read 10).toNat * 2 ^ 8 + (m.read 11).toNat

/-- The registers as a response header's bytes give them (R114). -/
structure ResponseRegisters (m : Memory) (f : FieldFile) : Prop where
  version : f.fld0.toNat = (m.read 0).toNat / 16
  responseType : f.fld1.toNat = (m.read 0).toNat % 16 * 16 + (m.read 1).toNat / 16
  sequenceNumber : f.fld2.toNat = (m.read 1).toNat % 16 * 2 ^ 12 + (m.read 2).toNat * 2 ^ 4 + (m.read 3).toNat / 16
  timestamp : f.fld3.toNat = (m.read 4).toNat * 2 ^ 24 + (m.read 5).toNat * 2 ^ 16 + (m.read 6).toNat * 2 ^ 8 +
    (m.read 7).toNat
  payloadLength : f.fld4.toNat = (m.read 8).toNat * 2 ^ 24 + (m.read 9).toNat * 2 ^ 16 + (m.read 10).toNat * 2 ^ 8 +
    (m.read 11).toNat

/-- DECHDR.REQ's registers: each field of the layout is whole bytes and half bytes (R113). -/
theorem requestRegisters_decodeHeaderFld (m : Memory) (f : FieldFile) :
    RequestRegisters m (decodeHeaderFld .req m f) := by
  rw [decodeHeaderFld_req]
  refine ⟨?_, ?_, ?_, ?_, ?_⟩ <;> simp (disch := decide) only [toNat_ofNat_readField]
  · exact m.readField_high 0
  · exact m.readField_byte 3
  · exact m.readField_four_bytes 4
  · exact m.readField_high 8
  · rw [m.readField_add 68 4 24, m.readField_low 8, m.readField_three_bytes 9, ← Nat.add_assoc, ← Nat.add_assoc]

/-- DECHDR.RSP's registers: each field of the layout is whole bytes and half bytes (R114). -/
theorem responseRegisters_decodeHeaderFld (m : Memory) (f : FieldFile) :
    ResponseRegisters m (decodeHeaderFld .rsp m f) := by
  rw [decodeHeaderFld_rsp]
  refine ⟨?_, ?_, ?_, ?_, ?_⟩ <;> simp (disch := decide) only [toNat_ofNat_readField]
  · exact m.readField_high 0
  · rw [m.readField_add 4 4 4, m.readField_low 0, m.readField_high 1]
    omega
  · rw [m.readField_add 12 4 12, m.readField_add 16 8 4, m.readField_low 1, m.readField_byte 2, m.readField_high 3,
      ← Nat.add_assoc]
  · exact m.readField_four_bytes 4
  · exact m.readField_four_bytes 8

/-- Two fields with no bit in common. -/
def FieldsApart (d e : FieldDesc) : Prop := d.off + d.len ≤ e.off ∨ e.off + e.len ≤ d.off

/-- The fields of a layout do not overlap (R61, R62). -/
theorem layoutFields_apart (l : Layout) : (layoutFields l).Pairwise FieldsApart := by
  unfold FieldsApart
  cases l <;> decide

/-- The writes of ENCHDR leave a field apart from all of theirs as it was. -/
theorem readField_writeHeaderFields_apart (d : FieldDesc) (ps : List (FieldDesc × Word)) (m : Memory)
    (hwf : m.wf = true) (hin : ∀ p ∈ ps, p.1.off + p.1.len ≤ Config.bufBits) (h : ∀ p ∈ ps, FieldsApart d p.1) :
    (writeHeaderFields m ps).readField d.off d.len = m.readField d.off d.len :=
  Memory.readField_congr _ _ _ _ fun k hlo hhi =>
    bit_writeHeaderFields_outside k ps m hwf fun p hp => by
      have hp_apart : d.off + d.len ≤ p.1.off ∨ p.1.off + p.1.len ≤ d.off := h p hp
      exact ⟨hin p hp, by omega⟩

/-- Every field reads back as ENCHDR wrote it, since the writes after it touch other bits. -/
theorem readField_writeHeaderFields : ∀ (ps : List (FieldDesc × Word)) (m : Memory), m.wf = true →
    (∀ p ∈ ps, p.1.off + p.1.len ≤ Config.bufBits) → (∀ p ∈ ps, p.2.toNat < 2 ^ p.1.len) →
    (ps.map Prod.fst).Pairwise FieldsApart →
    ∀ p ∈ ps, (writeHeaderFields m ps).readField p.1.off p.1.len = p.2.toNat
  | [], _, _, _, _, _ => by simp
  | (d, v) :: ps, m, hwf, hin, hfit, hapart => by
    obtain ⟨hd, hin⟩ := List.forall_mem_cons.1 hin
    obtain ⟨hv, hfit⟩ := List.forall_mem_cons.1 hfit
    rw [List.map_cons, List.pairwise_cons] at hapart
    obtain ⟨hdapart, hapart⟩ := hapart
    have hwf' := Memory.wf_writeField v.toNat d.len d.off m hwf hd
    refine List.forall_mem_cons.2 ⟨?_, readField_writeHeaderFields ps _ hwf' hin hfit hapart⟩
    rw [writeHeaderFields, readField_writeHeaderFields_apart d ps _ hwf' hin fun p hp =>
      hdapart p.1 (List.mem_map_of_mem hp)]
    exact m.readField_writeField v.toNat d.off d.len hwf hd hv

/-- Every field of the header ENCHDR builds is its register (R111, R112). -/
theorem readField_encodeHeaderBuf {l : Layout} {f : FieldFile} (h : fieldsFit l f = true) :
    ∀ p ∈ (layoutFields l).zip f.toList, (encodeHeaderBuf l f).readField p.1.off p.1.len = p.2.toNat := by
  refine readField_writeHeaderFields _ _ Memory.wf_cleared
    (fun p hp => (layoutFields_inside l p.1 (List.of_mem_zip hp).1).1)
    (fun p hp => (valueFits_iff _ _).1 (List.all_eq_true.1 h p hp)) ?_
  rw [List.map_fst_zip (by cases l <;> exact le_rfl)]
  exact layoutFields_apart l

/-- DECHDR's registers after ENCHDR are the registers ENCHDR found (R115). -/
theorem decodeHeaderFld_encodeHeaderBuf {l : Layout} {f : FieldFile} (h : fieldsFit l f = true) (g : FieldFile) :
    decodeHeaderFld l (encodeHeaderBuf l f) g = f := by
  have hfields := readField_encodeHeaderBuf h
  cases l with
  | req =>
    simp only [layoutFields, FieldFile.toList, List.zip_cons_cons, List.forall_mem_cons] at hfields
    obtain ⟨h0, h1, h2, h3, h4, -⟩ := hfields
    rw [decodeHeaderFld_req, h0, h1, h2, h3, h4]
    simp
  | rsp =>
    simp only [layoutFields, FieldFile.toList, List.zip_cons_cons, List.forall_mem_cons] at hfields
    obtain ⟨h0, h1, h2, h3, h4, -⟩ := hfields
    rw [decodeHeaderFld_rsp, h0, h1, h2, h3, h4]
    simp

/-- The reserved field of a header ENCHDR builds reads 0 (R64). -/
theorem readField_encodeHeaderBuf_reserved (l : Layout) (f : FieldFile) :
    (encodeHeaderBuf l f).readField (layoutReserved l).1 (layoutReserved l).2 = 0 :=
  Memory.readField_eq_zero _ _ _ fun _ hlo hhi => bit_encodeHeaderBuf_reserved f (decide_eq_true ⟨hlo, hhi⟩)

/-- Registers that fit the request layout are those of the header ENCHDR.REQ builds. -/
theorem requestRegisters_encodeHeaderBuf {f : FieldFile} (h : fieldsFit .req f = true) :
    RequestRegisters (encodeHeaderBuf .req f) f := by
  simpa only [decodeHeaderFld_encodeHeaderBuf h] using requestRegisters_decodeHeaderFld (encodeHeaderBuf .req f) f

/-- Registers that fit the response layout are those of the header ENCHDR.RSP builds. -/
theorem responseRegisters_encodeHeaderBuf {f : FieldFile} (h : fieldsFit .rsp f = true) :
    ResponseRegisters (encodeHeaderBuf .rsp f) f := by
  simpa only [decodeHeaderFld_encodeHeaderBuf h] using responseRegisters_decodeHeaderFld (encodeHeaderBuf .rsp f) f

/-- The reserved bits 4 to 23 of a request header are half a byte and two bytes, all 0 (R64, R111). -/
theorem reserved_bytes_encodeHeaderBuf_req (f : FieldFile) : ((encodeHeaderBuf .req f).read 0).toNat % 16 = 0 ∧
    (encodeHeaderBuf .req f).read 1 = 0 ∧ (encodeHeaderBuf .req f).read 2 = 0 := by
  have hzero : (encodeHeaderBuf .req f).readField 4 20 = 0 := readField_encodeHeaderBuf_reserved .req f
  rw [Memory.readField_add _ 4 4 16, Memory.readField_low _ 0, Memory.readField_two_bytes _ 1] at hzero
  simp only [Nat.reduceAdd] at hzero
  refine ⟨by omega, BitVec.eq_of_toNat_eq ?_, BitVec.eq_of_toNat_eq ?_⟩ <;> change _ = 0 <;> omega

/-- The reserved bits 28 to 31 of a response header are half a byte, 0 (R64, R112). -/
theorem reserved_bits_encodeHeaderBuf_rsp (f : FieldFile) : ((encodeHeaderBuf .rsp f).read 3).toNat % 16 = 0 :=
  (Memory.readField_low _ 3).symm.trans (readField_encodeHeaderBuf_reserved .rsp f)

/-- ENCHDR.L and DECHDR.L after it succeed and leave FLD as it was, in either layout (R115). -/
theorem header_round_trip {l : Layout} {s : State} (h : fieldsFit l s.fld = true) :
    ∃ t u, exec (enchdrOf l) s = .next t ∧ EndsOk s t 0 ∧ exec (dechdrOf l) t = .next u ∧ EndsOk t u 0 ∧
      u.fld = s.fld := by
  obtain ⟨t, henc, hencOk, -, hbuf⟩ := enchdrOf_endsOk h
  obtain ⟨u, hdec, hdecOk, -, hfld⟩ := dechdrOf_endsOk l t
  rw [hbuf, decodeHeaderFld_encodeHeaderBuf h] at hfld
  exact ⟨t, u, henc, hencOk, hdec, hdecOk, hfld⟩

end Sys2Proof.Machine
end

section
/-! The statements of 41_header.md. -/

namespace Sys2Proof.Machine

/-- Settles O26: DECHDR.REQ's registers are its five field reads, each made of bytes and half bytes. -/
theorem dechdrReqReadsTheRequestHeader : Obligations.DechdrReqReadsTheRequestHeader := by
  unfold Obligations.DechdrReqReadsTheRequestHeader
  refine ⟨wordRuns_of_isHeader (i := .dechdrReq) rfl, fun s => ?_⟩
  obtain ⟨t, hexec, hok, hbuf, hfld⟩ := dechdrOf_endsOk .req s
  have h := requestRegisters_decodeHeaderFld s.buf s.fld
  rw [← hfld] at h
  exact ⟨t, hexec, hok, hbuf, h.version, h.requestType, h.timestamp, h.imageTypeCode, h.imageNameLength⟩

/-- Settles O27: DECHDR.RSP's registers are its five field reads, each made of bytes and half bytes. -/
theorem dechdrRspReadsTheResponseHeader : Obligations.DechdrRspReadsTheResponseHeader := by
  unfold Obligations.DechdrRspReadsTheResponseHeader
  refine ⟨wordRuns_of_isHeader (i := .dechdrRsp) rfl, fun s => ?_⟩
  obtain ⟨t, hexec, hok, hbuf, hfld⟩ := dechdrOf_endsOk .rsp s
  have h := responseRegisters_decodeHeaderFld s.buf s.fld
  rw [← hfld] at h
  exact ⟨t, hexec, hok, hbuf, h.version, h.responseType, h.sequenceNumber, h.timestamp, h.payloadLength⟩

/-- Settles O24: the fields read back as the registers and the reserved bits are 0, which fixes all twelve bytes. -/
theorem enchdrReqBuildsTheRequestHeader : Obligations.EnchdrReqBuildsTheRequestHeader := by
  unfold Obligations.EnchdrReqBuildsTheRequestHeader
  refine ⟨wordRuns_of_isHeader (i := .enchdrReq) rfl, fun s => ⟨fun h0 h1 h3 h4 => ?_, fun hout => ?_⟩⟩
  · have hfit : fieldsFit .req s.fld = true := (fieldsFit_req_iff _).2 ⟨h0, h1, h3, h4⟩
    obtain ⟨t, hexec, hok, hfld, hbuf⟩ := enchdrOf_endsOk hfit
    obtain ⟨hversion, htype, htime, hcode, hlength⟩ := hbuf ▸ requestRegisters_encodeHeaderBuf hfit
    obtain ⟨hlow, hbyte1, hbyte2⟩ := hbuf ▸ reserved_bytes_encodeHeaderBuf_req s.fld
    obtain ⟨hbyte4, hbyte5, hbyte6, hbyte7⟩ := bytes_of_word htime
    refine ⟨t, hexec, hok, hfld, by omega, hbyte1, hbyte2, htype.symm, hbyte4, hbyte5, hbyte6, hbyte7, ?_,
      low_bytes_of_word hlength⟩
    rw [toNat_extractLsb'_eq_div_mod]
    omega
  · refine enchdrOf_endsFault (l := .req) fun hfit => ?_
    rw [fieldsFit_req_iff] at hfit
    omega

/-- Settles O25: the fields read back as the registers and the reserved bits are 0, which fixes all twelve bytes. -/
theorem enchdrRspBuildsTheResponseHeader : Obligations.EnchdrRspBuildsTheResponseHeader := by
  unfold Obligations.EnchdrRspBuildsTheResponseHeader
  refine ⟨wordRuns_of_isHeader (i := .enchdrRsp) rfl, fun s => ⟨fun h0 h1 h2 => ?_, fun hout => ?_⟩⟩
  · have hfit : fieldsFit .rsp s.fld = true := (fieldsFit_rsp_iff _).2 ⟨h0, h1, h2⟩
    obtain ⟨t, hexec, hok, hfld, hbuf⟩ := enchdrOf_endsOk hfit
    obtain ⟨hversion, htype, hsequence, htime, hlength⟩ := hbuf ▸ responseRegisters_encodeHeaderBuf hfit
    have hlow := hbuf ▸ reserved_bits_encodeHeaderBuf_rsp s.fld
    obtain ⟨hbyte4, hbyte5, hbyte6, hbyte7⟩ := bytes_of_word htime
    refine ⟨t, hexec, hok, hfld, ?_, ?_, BitVec.eq_of_toNat_eq ?_, ?_, hbyte4, hbyte5, hbyte6, hbyte7,
      bytes_of_word hlength⟩ <;>
    · simp only [toNat_extractLsb'_eq_div_mod]
      omega
  · refine enchdrOf_endsFault (l := .rsp) fun hfit => ?_
    rw [fieldsFit_rsp_iff] at hfit
    omega

/-- Settles O37: what the registers must fit is the layout's check, and the round trip holds for both layouts. -/
theorem headerRoundTrip : Obligations.HeaderRoundTrip := by
  unfold Obligations.HeaderRoundTrip
  exact ⟨fun s h0 h1 h3 h4 => header_round_trip (l := .req) ((fieldsFit_req_iff _).2 ⟨h0, h1, h3, h4⟩),
    fun s h0 h1 h2 => header_round_trip (l := .rsp) ((fieldsFit_rsp_iff _).2 ⟨h0, h1, h2⟩)⟩

/-- Settles O38: both layouts read `version` at (0, 4) and `timestamp` at (32, 32), and the two worked headers are
decoded from their bytes. -/
theorem wrongLayoutDecodesWithoutFault : Obligations.WrongLayoutDecodesWithoutFault := by
  unfold Obligations.WrongLayoutDecodesWithoutFault
  have hsameBits : ∀ d ∈ layoutFields .req, ∀ e ∈ layoutFields .rsp, (d.off = e.off ∧ d.len = e.len ↔
      d.name = e.name ∧ (d.name = .version ∨ d.name = .timestamp)) := by decide
  refine ⟨fun s => ?_, fun d e hd he => hsameBits d hd e he, fun s t hbuf h => ?_, fun s t hbuf h => ?_⟩
  · obtain ⟨t, hreq, hreqOk, -, hreqFld⟩ := dechdrOf_endsOk .req s
    obtain ⟨u, hrsp, hrspOk, -, hrspFld⟩ := dechdrOf_endsOk .rsp s
    rw [decodeHeaderFld_req] at hreqFld
    rw [decodeHeaderFld_rsp] at hrspFld
    exact ⟨t, u, hreq, hreqOk, hrsp, hrspOk, by rw [hreqFld, hrspFld], by rw [hreqFld, hrspFld]⟩
  · rw [fld_of_dechdr (l := .req) h, hbuf, decodeHeaderFld_req]
    decide
  · rw [fld_of_dechdr (l := .rsp) h, hbuf, decodeHeaderFld_rsp]
    decide

end Sys2Proof.Machine
end

section
/-! SUPPORT. The access commands: their words, one equation for each way they end, and what PUTBYTE leaves in BUF
compared with an eight-bit WRFIELD (42_access.md). -/

namespace Sys2Proof.Machine

/-- A byte index faults exactly when it is outside BUF (R48, R182). -/
theorem byteFault_rangeError_iff (nbytes idx : Nat) : byteFault nbytes idx = some .rangeError ↔ nbytes ≤ idx := by
  unfold byteFault
  split <;> simp <;> omega

/-- A register index faults exactly above FLD4 (R182). -/
theorem fldFault_rangeError_iff (idx : Nat) : fldFault idx = some .rangeError ↔ 5 ≤ idx := by
  unfold fldFault Config.nfld
  split <;> simp <;> omega

/-- `FLD[i]` is entry `i` of the registers in order, FLD0 first (R23). -/
theorem FieldFile.get?_eq_toList (f : FieldFile) : ∀ i, f.get? i = f.toList[i]?
  | 0 | 1 | 2 | 3 | 4 => rfl
  | _ + 5 => rfl

/-- CLRBUF's word has no operands (R76). -/
theorem decode_of_wordOp_clrbuf {w : CommandWord} (h : wordOp w = 0x03) :
    decode w = requireZero (noOperands w) 0x03 .clrbuf := by
  simp [decode, decodeFor, decodeFields, h, noOperands]

/-- CLRFLD's word has no operands (R76). -/
theorem decode_of_wordOp_clrfld {w : CommandWord} (h : wordOp w = 0x0A) :
    decode w = requireZero (noOperands w) 0x0A .clrfld := by
  simp [decode, decodeFor, decodeFields, h, noOperands]

/-- PUTBYTE's word has `b` zero (R76). -/
theorem decode_of_wordOp_putbyte {w : CommandWord} (h : wordOp w = 0x04) :
    decode w = requireZero (wordB w == 0) 0x04 (.putbyte (wordA w) (wordImm w)) := by
  simp [decode, decodeFor, decodeFields, h]

/-- GETBYTE's word has `b` and `imm` zero (R76). -/
theorem decode_of_wordOp_getbyte {w : CommandWord} (h : wordOp w = 0x05) :
    decode w = requireZero (wordB w == 0 && wordImm w == 0) 0x05 (.getbyte (wordA w)) := by
  simp [decode, decodeFor, decodeFields, h]

/-- SETFLD's word has `b` zero (R76). -/
theorem decode_of_wordOp_setfld {w : CommandWord} (h : wordOp w = 0x08) :
    decode w = requireZero (wordB w == 0) 0x08 (.setfld (wordA w) (wordImm w)) := by
  simp [decode, decodeFor, decodeFields, h]

/-- GETFLD's word has `b` and `imm` zero (R76). -/
theorem decode_of_wordOp_getfld {w : CommandWord} (h : wordOp w = 0x09) :
    decode w = requireZero (wordB w == 0 && wordImm w == 0) 0x09 (.getfld (wordA w)) := by
  simp [decode, decodeFor, decodeFields, h]

section
variable (s : State) {idx : BitVec 16} {byte val : Word}

/-- A legal PUTBYTE writes its byte and nothing else (R131). -/
theorem exec_putbyte_of_legal (hidx : idx.toNat < 12) (hbyte : byte.toNat < 256) : exec (.putbyte idx byte) s =
    .next ((s.setBuf (s.buf.write idx.toNat (BitVec.ofNat 8 byte.toNat))).respond 0) := by
  have haddr := (byteFault_eq_none_iff Config.nbytes _).2 hidx
  have hfits := (valueFits_iff 8 _).2 hbyte
  simp only [exec, execPutbyte, haddr, hfits, if_true]

/-- The index is checked before the value (R131, R185). -/
theorem exec_putbyte_of_outside (hidx : 12 ≤ idx.toNat) :
    exec (.putbyte idx byte) s = .next (s.raiseFault .rangeError) := by
  have haddr := (byteFault_rangeError_iff Config.nbytes _).2 hidx
  simp only [exec, execPutbyte, haddr]

/-- A value above 255 writes nothing (R131, R181). -/
theorem exec_putbyte_of_not_fits (hidx : idx.toNat < 12) (hbyte : 256 ≤ byte.toNat) :
    exec (.putbyte idx byte) s = .next (s.raiseFault .valueError) := by
  have haddr := (byteFault_eq_none_iff Config.nbytes _).2 hidx
  have hfits : ¬ valueFits 8 byte.toNat = true := fun h => absurd ((valueFits_iff 8 _).1 h) (not_lt.2 hbyte)
  simp only [exec, execPutbyte, haddr, if_neg hfits]

/-- A legal GETBYTE responds with its byte, zero-extended (R132). -/
theorem exec_getbyte_of_legal (hidx : idx.toNat < 12) :
    exec (.getbyte idx) s = .next (s.respond ((s.buf.read idx.toNat).setWidth 32)) := by
  have haddr := (byteFault_eq_none_iff Config.nbytes _).2 hidx
  simp only [exec, execGetbyte, haddr]

theorem exec_getbyte_of_outside (hidx : 12 ≤ idx.toNat) :
    exec (.getbyte idx) s = .next (s.raiseFault .rangeError) := by
  have haddr := (byteFault_rangeError_iff Config.nbytes _).2 hidx
  simp only [exec, execGetbyte, haddr]

/-- A legal SETFLD writes its register, whatever the value (R133). -/
theorem exec_setfld_of_legal (hidx : idx.toNat < 5) :
    exec (.setfld idx val) s = .next ((s.setFld (s.fld.set idx.toNat val)).respond 0) := by
  have haddr := (fldFault_eq_none_iff _).2 hidx
  simp only [exec, execSetfld, haddr]

theorem exec_setfld_of_outside (hidx : 5 ≤ idx.toNat) :
    exec (.setfld idx val) s = .next (s.raiseFault .rangeError) := by
  have haddr := (fldFault_rangeError_iff _).2 hidx
  simp only [exec, execSetfld, haddr]

/-- A GETFLD of a register that exists responds with it (R134). -/
theorem exec_getfld_of_get? (h : s.fld.get? idx.toNat = some val) :
    exec (.getfld idx) s = .next (s.respond val) := by
  simp only [exec, execGetfld, h]

theorem exec_getfld_of_outside (hidx : 5 ≤ idx.toNat) :
    exec (.getfld idx) s = .next (s.raiseFault .rangeError) := by
  have hnone := (s.fld.get?_eq_none_iff _).2 hidx
  simp only [exec, execGetfld, hnone]

end

/-- A value below 256 is the value of its byte (R8). -/
theorem toNat_byte_ofNat {v : Nat} (hv : v < 256) : (BitVec.ofNat 8 v).toNat = v :=
  (BitVec.toNat_ofNat v 8).trans (Nat.mod_eq_of_lt hv)

/-- An eight-bit field written at a byte's first bit replaces that byte and no other (R41, R90). -/
theorem Memory.read_writeField_byte (m : Memory) {i v : Nat} (j : Nat) (hwf : m.wf = true) (hi : i < 12)
    (hv : v < 256) : (m.writeField v (8 * i) 8).read j = if j = i then BitVec.ofNat 8 v else m.read j := by
  have hin : 8 * i + 8 ≤ Config.bufBits := by unfold Config.bufBits Config.nbytes; omega
  split
  · next hj =>
    have hbyte : ((m.writeField v (8 * i) 8).read i).toNat = v := by
      rw [← Memory.readField_byte, m.readField_writeField v _ _ hwf hin hv]
    rw [hj]
    exact BitVec.eq_of_toNat_eq (hbyte.trans (toNat_byte_ofNat hv).symm)
  · refine Memory.read_congr _ _ j fun k hlo hhi => ?_
    rw [Memory.bit_writeField v k _ _ m hwf hin, if_neg (by omega)]

/-- Writing a byte is writing its eight bits as a field (R131). -/
theorem Memory.write_eq_writeField (m : Memory) {i v : Nat} (hwf : m.wf = true) (hi : i < 12) (hv : v < 256) :
    m.write i (BitVec.ofNat 8 v) = m.writeField v (8 * i) 8 :=
  Memory.ext_of_read _ _ (m.wf_write i _ hwf hi)
    (Memory.wf_writeField v 8 (8 * i) m hwf (by unfold Config.bufBits Config.nbytes; omega)) fun j => by
      rw [m.read_write _ _ _ hwf, m.read_writeField_byte j hwf hi hv]

/-- PUTBYTE inside BUF is WRFIELD of the byte's eight bits, ValueError included (R131). -/
theorem exec_putbyte_eq_wrfield (s : State) {idx : BitVec 16} (byte : Word) (hwf : s.buf.wf = true)
    (hidx : idx.toNat < 12) : exec (.putbyte idx byte) s = exec (.wrfield (8 * idx) 8 byte) s := by
  have hoff : (8 * idx).toNat = 8 * idx.toNat := by bv_omega
  have hlen : (8 : BitVec 8).toNat = 8 := rfl
  have hin : (8 * idx).toNat + (8 : BitVec 8).toNat ≤ 96 := by omega
  by_cases hbyte : byte.toNat < 256
  · rw [exec_putbyte_of_legal s hidx hbyte, exec_wrfield_of_legal s (by decide) hin hbyte, hoff, hlen,
      s.buf.write_eq_writeField hwf hidx hbyte]
  · rw [exec_putbyte_of_not_fits s hidx (not_lt.1 hbyte),
      exec_wrfield_of_not_fits s (by decide) hin (not_lt.1 hbyte)]

/-- STATUS as 32 bits of data: FAULTED in bit 7, LAST in bits 2:0, every other bit 0 (R28, R136). -/
theorem setWidth_statusOf_fields (b : Bool) (c : BitVec 3) :
    ((statusOf b c).setWidth 32).getLsbD 7 = b ∧ ((statusOf b c).setWidth 32).extractLsb' 3 4 = 0 ∧
      ((statusOf b c).setWidth 32).extractLsb' 0 3 = c ∧ ((statusOf b c).setWidth 32).extractLsb' 8 24 = 0 := by
  revert b c
  decide

end Sys2Proof.Machine
end

section
/-! The statements of 42_access.md. -/

namespace Sys2Proof.Machine

/-- Settles O18: the index check and the value check decide between the two faults and one byte's write, which is the
write of its eight bits. -/
theorem putbyteStoresOneByteOrFaults : Obligations.PutbyteStoresOneByteOrFaults := by
  unfold Obligations.PutbyteStoresOneByteOrFaults
  refine ⟨wordRuns_of_decode fun w => decode_of_wordOp_putbyte, fun s idx byte =>
    ⟨fun hwf hidx hbyte => ?_, fun hidx => ?_, fun hidx hbyte => ?_, fun hwf => exec_putbyte_eq_wrfield s byte hwf⟩⟩
  · refine ⟨_, exec_putbyte_of_legal s hidx hbyte, endsOk_respond s _ 0 rfl, rfl, ?_, fun j hj => ?_⟩
    · rw [State.respond_buf, State.setBuf_buf, Memory.read_write _ _ _ _ hwf, if_pos rfl]
      exact toNat_byte_ofNat hbyte
    · rw [State.respond_buf, State.setBuf_buf, Memory.read_write _ _ _ _ hwf, if_neg hj]
  · exact ⟨_, exec_putbyte_of_outside s hidx, endsFault_raiseFault s _⟩
  · exact ⟨_, exec_putbyte_of_not_fits s hidx hbyte, endsFault_raiseFault s _⟩

/-- Settles O19: a byte zero-extended to 32 bits is the same number. -/
theorem getbyteReturnsOneByteOrFaults : Obligations.GetbyteReturnsOneByteOrFaults := by
  unfold Obligations.GetbyteReturnsOneByteOrFaults
  refine ⟨wordRuns_of_decode fun w => decode_of_wordOp_getbyte, fun s idx => ⟨fun hidx => ?_, fun hidx => ?_⟩⟩
  · exact ⟨_, _, exec_getbyte_of_legal s hidx, endsOk_respond s _ _ rfl,
      BitVec.toNat_setWidth_of_le (by decide), rfl, rfl⟩
  · exact ⟨_, exec_getbyte_of_outside s hidx, endsFault_raiseFault s _⟩

/-- Settles O20: a write of a register that exists changes that register and no other. -/
theorem setfldWritesOneRegisterOrFaults : Obligations.SetfldWritesOneRegisterOrFaults := by
  unfold Obligations.SetfldWritesOneRegisterOrFaults
  refine ⟨wordRuns_of_decode fun w => decode_of_wordOp_setfld, fun s idx val => ⟨fun hidx => ?_, fun hidx => ?_⟩⟩
  · refine ⟨_, exec_setfld_of_legal s hidx, endsOk_respond s _ 0 rfl, rfl, ?_, fun j hj => ?_⟩
    · exact (s.fld.get?_set _ _ val hidx).trans (if_pos rfl)
    · exact (s.fld.get?_set _ _ val hidx).trans (if_neg hj)
  · exact ⟨_, exec_setfld_of_outside s hidx, endsFault_raiseFault s _⟩

/-- Settles O21: the five registers exist, and register `idx` is entry `idx` of their list. -/
theorem getfldReturnsOneRegisterOrFaults : Obligations.GetfldReturnsOneRegisterOrFaults := by
  unfold Obligations.GetfldReturnsOneRegisterOrFaults
  refine ⟨wordRuns_of_decode fun w => decode_of_wordOp_getfld, fun s idx => ⟨fun hidx => ?_, fun hidx => ?_⟩⟩
  · have hexists : s.fld.get? idx.toNat ≠ none := fun h => absurd ((s.fld.get?_eq_none_iff _).1 h) (not_le.2 hidx)
    obtain ⟨v, hv⟩ := Option.ne_none_iff_exists'.1 hexists
    exact ⟨_, v, exec_getfld_of_get? s hv, endsOk_respond s _ _ rfl, rfl, rfl,
      (s.fld.get?_eq_toList _).symm.trans hv⟩
  · exact ⟨_, exec_getfld_of_outside s hidx, endsFault_raiseFault s _⟩

/-- Settles O17: the cleared buffer lists no byte, and an unlisted byte reads 0. -/
theorem clrbufZeroesEveryByte : Obligations.ClrbufZeroesEveryByte := by
  unfold Obligations.ClrbufZeroesEveryByte
  exact ⟨wordRuns_of_decode fun w => decode_of_wordOp_clrbuf, fun s =>
    ⟨_, rfl, endsOk_respond s (s.setBuf Memory.cleared) 0 rfl, Memory.read_cleared, rfl⟩⟩

/-- Settles O22: CLRFLD replaces the register file by the zero one. -/
theorem clrfldZeroesEveryRegister : Obligations.ClrfldZeroesEveryRegister := by
  unfold Obligations.ClrfldZeroesEveryRegister
  exact ⟨wordRuns_of_decode fun w => decode_of_wordOp_clrfld, fun s =>
    ⟨_, rfl, endsOk_respond s (s.setFld FieldFile.zero) 0 rfl, rfl, rfl⟩⟩

/-- Settles O23: GETSTAT writes only the response, whose data is STATUS as it is read. -/
theorem getstatReturnsStatusAndKeepsIt : Obligations.GetstatReturnsStatusAndKeepsIt := by
  unfold Obligations.GetstatReturnsStatusAndKeepsIt
  exact ⟨wordRuns_of_decode fun w => decode_of_wordOp_getstat, fun s =>
    ⟨s.respondKeepingLast ((statusRead s.status).setWidth 32), _, rfl, rfl, rfl, rfl, rfl,
      setWidth_statusOf_fields _ _⟩⟩

end Sys2Proof.Machine
end

section
/-! SUPPORT. The two expansions of the packet layer (43_packet_layer.md R159): what each part of a command sequence
answers, and the header expansions as functions of their values and bytes. -/

namespace Sys2Proof.Machine

/-- An operand that numbers a register or a byte is its own value in 16 bits. -/
theorem toNat_index_ofNat {i n : Nat} (hi : i < n) (hn : n ≤ 12) : (BitVec.ofNat 16 i).toNat = i :=
  (BitVec.toNat_ofNat i 16).trans (Nat.mod_eq_of_lt (by omega))

/-- A sequence whose first command responds goes on after it with the response's data in front. -/
theorem issueAll_cons_respond {i : Instr} {s u : State} {d : Word} (h : exec i s = .next (u.respond d))
    (is : List Instr) : issueAll (i :: is) s =
      ((issueAll is (u.respond d)).1, (issueAll is (u.respond d)).2.map (d :: ·)) :=
  issueAll_cons_ok i is s _ d ((decode_eq_ok_iff _ _).2 rfl) h rfl

/-- A sequence whose first command takes a fault ends there (R159). -/
theorem issueAll_cons_raiseFault {i : Instr} {s u : State} {k : FaultKind} (h : exec i s = .next (u.raiseFault k))
    (is : List Instr) : issueAll (i :: is) s = (u.raiseFault k, .blockFault k) :=
  issueAll_cons_fault i is s _ k ((decode_eq_ok_iff _ _).2 rfl) h rfl

/-- A result is a value only if it was mapped from one. -/
theorem PacketResult.map_eq_ok {α β : Type} {f : α → β} {r : PacketResult α} {b : β} (h : r.map f = .ok b) :
    ∃ a, r = .ok a ∧ f a = b := by
  cases r with
  | ok a => exact ⟨a, rfl, PacketResult.ok.inj h⟩
  | _ => cases h

/-- A sequence answered in full had its first command answered well, and any other rest goes on from there. -/
theorem issueAll_cons_eq_ok {i : Instr} {is : List Instr} {s t : State} {ds : List Word}
    (h : issueAll (i :: is) s = (t, .ok ds)) :
    ∃ u d es, ds = d :: es ∧ issueAll is u = (t, .ok es) ∧ ∀ js, issueAll (i :: js) s =
      ((issueAll js u).1, (issueAll js u).2.map (d :: ·)) := by
  simp only [issueAll] at h ⊢
  split at h
  · cases h
  · next u r hr =>
    split at h
    · cases h
    · obtain ⟨hstate, hmap⟩ := Prod.mk.inj h
      obtain ⟨es, hes, rfl⟩ := PacketResult.map_eq_ok hmap
      exact ⟨u, r.data, es, rfl, Prod.ext hstate hes, fun _ => rfl⟩

/-- A sequence whose first part is answered in full goes on with its second part (R159). -/
theorem issueAll_append {is : List Instr} : ∀ {s t : State} {ds : List Word}, issueAll is s = (t, .ok ds) →
    ∀ js, issueAll (is ++ js) s = ((issueAll js t).1, (issueAll js t).2.map (ds ++ ·)) := by
  induction is with
  | nil =>
    rintro s t ds h js
    cases h
    cases hr : (issueAll js s).2 <;> exact Prod.ext rfl hr
  | cons i is ih =>
    intro s t ds h js
    obtain ⟨u, d, es, rfl, htail, hcons⟩ := issueAll_cons_eq_ok h
    rw [List.cons_append, hcons, ih htail, PacketResult.map_map]
    rfl

/-- Commands that only respond, with data that BUF and FLD fix, are answered in order. -/
theorem issueAll_map_respond {command : Nat → Instr} {data : Nat → Word} : ∀ (is : List Nat) (s : State),
    (∀ i ∈ is, ∀ t : State, t.buf = s.buf → t.fld = s.fld →
      exec (command i) t = .next (t.respond (data i))) →
    (issueAll (is.map command) s).2 = .ok (is.map data)
  | [], _, _ => rfl
  | i :: is, s, h => by
    obtain ⟨hi, his⟩ := List.forall_mem_cons.1 h
    rw [List.map_cons, issueAll_cons_respond (hi s rfl rfl),
      issueAll_map_respond is (s.respond (data i)) his]
    rfl

/-- GETBYTEs read BUF (R132, R159). -/
theorem issueAll_getbytes (s : State) : (issueAll ((List.range Config.hdrBytes).map fun i =>
    .getbyte (BitVec.ofNat 16 i)) s).2 = .ok ((List.range Config.hdrBytes).map fun i => (s.buf.read i).setWidth 32) :=
  issueAll_map_respond _ s fun i hi t hbuf _ => by
    have hindex := toNat_index_ofNat (List.mem_range.1 hi) le_rfl
    rw [exec_getbyte_of_legal t (hindex.symm ▸ List.mem_range.1 hi), hindex, hbuf]

/-- GETFLDs read FLD (R134, R159). -/
theorem issueAll_getflds (s : State) : (issueAll ((List.range Config.nfld).map fun i =>
    .getfld (BitVec.ofNat 16 i)) s).2 = .ok s.fld.toList := by
  refine issueAll_map_respond (data := fun i => (s.fld.get? i).getD 0) _ s fun i hi t _ hfld =>
    exec_getfld_of_get? t ?_
  have hexists : s.fld.get? i ≠ none := fun h =>
    absurd ((s.fld.get?_eq_none_iff i).1 h) (not_le.2 (List.mem_range.1 hi))
  obtain ⟨v, hv⟩ := Option.ne_none_iff_exists'.1 hexists
  rw [toNat_index_ofNat (List.mem_range.1 hi) (by decide), hfld, hv, Option.getD_some]

section
variable {α β : Type} {n : Nat} {good : State → Prop} {slot : State → Nat → β} {held : α → β}
  {store : Nat → α → Instr} {stores : Nat → List α → List Instr}

/-- One storing command for each value, from slot `i` on, leaves the values in their slots and the slots before `i`
as they were, when each command changes its own slot only. -/
theorem issueAll_stores (hnil : ∀ i, stores i [] = [])
    (hcons : ∀ i v vs, stores i (v :: vs) = store i v :: stores (i + 1) vs)
    (hstore : ∀ i v s, i < n → good s → ∃ u : State, exec (store i v) s = .next (u.respond 0) ∧
      good (u.respond 0) ∧ ∀ j, slot (u.respond 0) j = if j = i then held v else slot s j) :
    ∀ (vs : List α) (i : Nat) (s : State), i + vs.length ≤ n → good s →
    ∃ t, issueAll (stores i vs) s = (t, .ok (List.replicate vs.length 0)) ∧
      (∀ j < i, slot t j = slot s j) ∧ ∀ j (hj : j < vs.length), slot t (i + j) = held vs[j]
  | [], i, s, _, _ => ⟨s, by rw [hnil]; rfl, fun _ _ => rfl, fun _ hj => absurd hj (Nat.not_lt_zero _)⟩
  | v :: vs, i, s, hroom, hgood => by
    rw [List.length_cons] at hroom
    obtain ⟨u, hexec, hgood', hslot⟩ := hstore i v s (by omega) hgood
    obtain ⟨t, hrest, hbefore, hheld⟩ :=
      issueAll_stores hnil hcons hstore vs (i + 1) (u.respond 0) (by omega) hgood'
    refine ⟨t, ?_, fun j hj => ?_, fun j hj => ?_⟩
    · rw [hcons, issueAll_cons_respond hexec, hrest]
      rfl
    · rw [hbefore j (by omega), hslot, if_neg (by omega)]
    · cases j with
      | zero =>
        rw [Nat.add_zero, hbefore i (by omega), hslot, if_pos rfl]
        rfl
      | succ j =>
        rw [show i + (j + 1) = i + 1 + j by omega, hheld j (Nat.lt_of_succ_lt_succ hj)]
        rfl

end

/-- SETFLD of a register that exists, its index a number (R133). -/
theorem exec_setfld_index (s : State) {i : Nat} (hi : i < 5) (v : Word) :
    exec (.setfld (BitVec.ofNat 16 i) v) s = .next ((s.setFld (s.fld.set i v)).respond 0) := by
  have hindex := toNat_index_ofNat hi (by decide)
  rw [exec_setfld_of_legal s (hindex.symm ▸ hi), hindex]

/-- PUTBYTE of a byte that exists, its index a number and its value a byte (R131). -/
theorem exec_putbyte_index (s : State) {i : Nat} (hi : i < 12) (b : Byte) :
    exec (.putbyte (BitVec.ofNat 16 i) (b.setWidth 32)) s = .next ((s.setBuf (s.buf.write i b)).respond 0) := by
  have hindex := toNat_index_ofNat hi le_rfl
  have hbyte : (b.setWidth 32).toNat = b.toNat := BitVec.toNat_setWidth_of_le (by decide)
  rw [exec_putbyte_of_legal s (hindex.symm ▸ hi) (hbyte.symm ▸ b.isLt), hindex, hbyte, BitVec.ofNat_toNat,
    BitVec.setWidth_eq]

/-- SETFLDs from FLD0 on store their values (R133, R159). -/
theorem issueAll_setfldCommands {vs : List Word} (hroom : vs.length ≤ 5) (s : State) :
    ∃ t, issueAll (setfldCommands 0 vs) s = (t, .ok (List.replicate vs.length 0)) ∧
      ∀ j (hj : j < vs.length), t.fld.get? j = some vs[j] := by
  obtain ⟨t, hissue, -, hheld⟩ := issueAll_stores (n := 5) (good := fun _ => True)
    (slot := fun s => s.fld.get?) (held := some) (store := fun i => .setfld (BitVec.ofNat 16 i))
    (stores := setfldCommands) (fun _ => rfl) (fun _ _ _ => rfl)
    (fun i v s hi _ => ⟨_, exec_setfld_index s hi v, trivial, fun j => s.fld.get?_set i j v hi⟩)
    vs 0 s (by omega) trivial
  exact ⟨t, hissue, fun j hj => by simpa only [Nat.zero_add] using hheld j hj⟩

/-- PUTBYTEs from byte 0 on store their bytes (R131, R159). -/
theorem issueAll_putbyteCommands {bs : List Byte} (hroom : bs.length ≤ 12) {s : State} (hwf : s.buf.wf = true) :
    ∃ t, issueAll (putbyteCommands 0 bs) s = (t, .ok (List.replicate bs.length 0)) ∧
      ∀ j (hj : j < bs.length), t.buf.read j = bs[j] := by
  obtain ⟨t, hissue, -, hheld⟩ := issueAll_stores (n := 12) (good := fun s => s.buf.wf = true)
    (slot := fun s => s.buf.read) (held := id) (store := fun i b => .putbyte (BitVec.ofNat 16 i) (b.setWidth 32))
    (stores := putbyteCommands) (fun _ => rfl) (fun _ _ _ => rfl)
    (fun i b s hi hwf =>
      ⟨_, exec_putbyte_index s hi b, s.buf.wf_write i b hwf hi, fun j => s.buf.read_write i j b hwf⟩)
    bs 0 s (by omega) hwf
  exact ⟨t, hissue, fun j hj => by simpa only [Nat.zero_add, id_eq] using hheld j hj⟩

/-- Five SETFLDs from FLD0 on leave exactly the registers they name (R133, R159). -/
theorem issueAll_setfldCommands_toList (f : FieldFile) (s : State) :
    ∃ t, issueAll (setfldCommands 0 f.toList) s = (t, .ok (List.replicate 5 0)) ∧ t.fld = f := by
  obtain ⟨t, hissue, hstored⟩ := issueAll_setfldCommands (vs := f.toList) le_rfl s
  refine ⟨t, hissue, ?_⟩
  have h0 := Option.some.inj (hstored 0 (by decide : 0 < 5))
  have h1 := Option.some.inj (hstored 1 (by decide : 1 < 5))
  have h2 := Option.some.inj (hstored 2 (by decide : 2 < 5))
  have h3 := Option.some.inj (hstored 3 (by decide : 3 < 5))
  have h4 := Option.some.inj (hstored 4 (by decide : 4 < 5))
  rw [FieldFile.mk.injEq]
  exact ⟨h0, h1, h2, h3, h4⟩

/-- Every register's value is expressible in SETFLD's immediate (R159). -/
theorem all_expressible_toNat (vs : List Word) : (vs.map BitVec.toNat).all expressible = true := by
  simpa [expressible] using fun v _ => v.isLt

/-- Five expressible numbers are the values of some registers (R159). -/
theorem exists_registers {f0 f1 f2 f3 f4 : Nat} (h0 : f0 < 2 ^ 32) (h1 : f1 < 2 ^ 32) (h2 : f2 < 2 ^ 32)
    (h3 : f3 < 2 ^ 32) (h4 : f4 < 2 ^ 32) :
    ∃ f : FieldFile, f.fld0.toNat = f0 ∧ f.fld1.toNat = f1 ∧ f.fld2.toNat = f2 ∧ f.fld3.toNat = f3 ∧
      f.fld4.toNat = f4 :=
  ⟨⟨.ofNatLT f0 h0, .ofNatLT f1 h1, .ofNatLT f2 h2, .ofNatLT f3 h3, .ofNatLT f4 h4⟩, rfl, rfl, rfl, rfl, rfl⟩

/-- The header expansion on the values of registers: its SETFLDs leave those registers, and ENCHDR and the GETBYTEs
follow (R159). -/
theorem encodeHeaderMacro_registers (l : Layout) (f : FieldFile) (s : State) : ∃ t : State, t.fld = f ∧
    (encodeHeaderMacro l (f.toList.map BitVec.toNat) s).2 =
      (issueAll (enchdrOf l :: (List.range Config.hdrBytes).map fun i => .getbyte (BitVec.ofNat 16 i)) t).2.map
        fun ds => (ds.drop 1).map (BitVec.setWidth 8) := by
  obtain ⟨t, hset, hfld⟩ := issueAll_setfldCommands_toList f s
  refine ⟨t, hfld, ?_⟩
  have hvalues : (f.toList.map BitVec.toNat).map (BitVec.ofNat 32) = f.toList := by
    simp [List.map_map, Function.comp_def]
  rw [encodeHeaderMacro, if_pos (all_expressible_toNat _), hvalues, encodeHeaderCommands, issueAll_append hset]
  exact PacketResult.map_map _ _ _

/-- Registers that fit the layout give the twelve bytes ENCHDR builds (R159). -/
theorem encodeHeaderMacro_of_fieldsFit {l : Layout} {f : FieldFile} (h : fieldsFit l f = true) (s : State) :
    (encodeHeaderMacro l (f.toList.map BitVec.toNat) s).2 =
      .ok ((List.range Config.hdrBytes).map (encodeHeaderBuf l f).read) := by
  obtain ⟨t, rfl, hexpand⟩ := encodeHeaderMacro_registers l f s
  have hexec : exec (enchdrOf l) t = .next ((t.setBuf (encodeHeaderBuf l t.fld)).respond 0) := by
    rw [exec_enchdrOf, State.encodeHeader, if_pos h]
  rw [hexpand, issueAll_cons_respond hexec, issueAll_getbytes]
  simp [Function.comp_def]

/-- Registers that do not fit the layout give ENCHDR's ValueError (R159). -/
theorem encodeHeaderMacro_of_not_fieldsFit {l : Layout} {f : FieldFile} (h : ¬ fieldsFit l f = true) (s : State) :
    (encodeHeaderMacro l (f.toList.map BitVec.toNat) s).2 = .blockFault .valueError := by
  obtain ⟨t, rfl, hexpand⟩ := encodeHeaderMacro_registers l f s
  have hexec : exec (enchdrOf l) t = .next (t.raiseFault .valueError) := by
    rw [exec_enchdrOf, State.encodeHeader, if_neg h]
  rw [hexpand, issueAll_cons_raiseFault hexec]
  rfl

/-- A value that is not expressible is a ValueError; the SETFLDs before it succeed (R159). -/
theorem encodeHeaderMacro_of_not_expressible (l : Layout) {fs : List Nat} (hlen : fs.length ≤ 5)
    (h : ∃ v ∈ fs, 2 ^ 32 ≤ v) (s : State) : (encodeHeaderMacro l fs s).2 = .blockFault .valueError := by
  have hall : ¬ fs.all expressible = true := fun hall => by
    obtain ⟨v, hv, hwide⟩ := h
    exact absurd (of_decide_eq_true (List.all_eq_true.1 hall v hv)) (not_lt.2 hwide)
  have htaken : ((fs.takeWhile expressible).map (BitVec.ofNat 32)).length ≤ 5 := by
    rw [List.length_map]
    exact (List.takeWhile_sublist expressible).length_le.trans hlen
  obtain ⟨t, hset, -⟩ := issueAll_setfldCommands htaken s
  rw [encodeHeaderMacro, if_neg hall, hset]
  rfl

/-- The header expansion for twelve bytes gives the registers DECHDR reads from a buffer that holds them (R159). -/
theorem decodeHeaderMacro_eq (l : Layout) {h : List Byte} {s : State} (hwf : s.buf.wf = true)
    (hlen : h.length = Config.hdrBytes) :
    ∃ (m : Memory) (f : FieldFile), (∀ j (hj : j < h.length), m.read j = h[j]) ∧
      (decodeHeaderMacro l h s).2 = .ok ((decodeHeaderFld l m f).toList.map BitVec.toNat) := by
  obtain ⟨t, hput, hstored⟩ := issueAll_putbyteCommands hlen.le hwf
  refine ⟨t.buf, t.fld, hstored, ?_⟩
  rw [decodeHeaderMacro, decodeHeaderCommands, issueAll_append hput,
    issueAll_cons_respond (exec_dechdrOf l t), issueAll_getflds]
  change PacketResult.ok (((List.replicate h.length 0 ++ (0 :: (decodeHeaderFld l t.buf t.fld).toList)).drop
    (h.length + 1)).map BitVec.toNat) = _
  rw [List.drop_append]
  simp

end Sys2Proof.Machine
end

section
/-! SUPPORT. The response header as bytes and as numbers (43_packet_layer.md R155, R156). -/

namespace Sys2Proof.Machine

/-- The twelve bytes of a response header, from its registers (R112). -/
theorem ResponseRegisters.bytes_eq {m : Memory} {f : FieldFile} (h : ResponseRegisters m f)
    (hreserved : (m.read 3).toNat % 16 = 0) : (List.range Config.hdrBytes).map m.read =
      [BitVec.ofNat 8 (f.fld0.toNat * 16 + f.fld1.toNat / 16),
       BitVec.ofNat 8 (f.fld1.toNat % 16 * 16 + f.fld2.toNat / 4096),
       BitVec.ofNat 8 (f.fld2.toNat / 16), BitVec.ofNat 8 (f.fld2.toNat % 16 * 16),
       BitVec.ofNat 8 (f.fld3.toNat / 2 ^ 24), BitVec.ofNat 8 (f.fld3.toNat / 2 ^ 16),
       BitVec.ofNat 8 (f.fld3.toNat / 2 ^ 8), BitVec.ofNat 8 f.fld3.toNat,
       BitVec.ofNat 8 (f.fld4.toNat / 2 ^ 24), BitVec.ofNat 8 (f.fld4.toNat / 2 ^ 16),
       BitVec.ofNat 8 (f.fld4.toNat / 2 ^ 8), BitVec.ofNat 8 f.fld4.toNat] := by
  obtain ⟨hversion, htype, hsequence, htime, hlength⟩ := h
  change [m.read 0, m.read 1, m.read 2, m.read 3, m.read 4, m.read 5, m.read 6, m.read 7, m.read 8, m.read 9,
    m.read 10, m.read 11] = _
  simp only [List.cons.injEq, and_true]
  refine ⟨?_, ?_, ?_, ?_, ?_, ?_, ?_, ?_, ?_, ?_, ?_, ?_⟩ <;>
  · apply BitVec.eq_of_toNat_eq
    rw [BitVec.toNat_ofNat]
    omega

/-- The five numbers of a response header's bytes (R114, R159). -/
theorem decodeHeaderMacro_rsp {s : State} (hwf : s.buf.wf = true) (b0 b1 b2 b3 b4 b5 b6 b7 b8 b9 b10 b11 : Byte) :
    (decodeHeaderMacro .rsp [b0, b1, b2, b3, b4, b5, b6, b7, b8, b9, b10, b11] s).2 = .ok
      [b0.toNat / 16, b0.toNat % 16 * 16 + b1.toNat / 16,
       b1.toNat % 16 * 2 ^ 12 + b2.toNat * 2 ^ 4 + b3.toNat / 16,
       b4.toNat * 2 ^ 24 + b5.toNat * 2 ^ 16 + b6.toNat * 2 ^ 8 + b7.toNat,
       b8.toNat * 2 ^ 24 + b9.toNat * 2 ^ 16 + b10.toNat * 2 ^ 8 + b11.toNat] := by
  obtain ⟨m, f, hread, hexpand⟩ := decodeHeaderMacro_eq .rsp (s := s) hwf
    (h := [b0, b1, b2, b3, b4, b5, b6, b7, b8, b9, b10, b11]) rfl
  obtain ⟨hversion, htype, hsequence, htime, hlength⟩ := responseRegisters_decodeHeaderFld m f
  have hbyte : ∀ j < 12, m.read j = [b0, b1, b2, b3, b4, b5, b6, b7, b8, b9, b10, b11].getD j 0 := fun j hj => by
    rw [hread j hj, List.getD_eq_getElem _ _ hj]
  rw [hexpand]
  simp [FieldFile.toList, hversion, htype, hsequence, htime, hlength, hbyte]

/-- BUILDRSP on the values of registers is the header expansion on them, then the payload (R155). -/
theorem buildRsp_registers {f : FieldFile} {payload : List Byte} (h : f.fld4.toNat = payload.length) (s : State) :
    (buildRsp f.fld0.toNat f.fld1.toNat f.fld2.toNat f.fld3.toNat payload s).2 =
      (encodeHeaderMacro .rsp (f.toList.map BitVec.toNat) s).2.map (· ++ payload) := by
  rw [buildRsp, ← h]
  rfl

/-- With a header present, PARSERSP is the header expansion on its twelve bytes, then the length test (R156). -/
theorem parseRsp_of_header {bytes : List Byte} (h : Config.hdrBytes ≤ bytes.length) (s : State) :
    (parseRsp bytes s).2 =
      (decodeHeaderMacro .rsp (bytes.take Config.hdrBytes) s).2.andThen (finishResponse bytes) := by
  rw [parseRsp, if_neg (not_lt.2 h)]

section
variable {bytes : List Byte} {version responseType sequenceNumber timestamp payloadLength : Nat}

/-- A declared length beyond the bytes present is an error (R156). -/
theorem finishResponse_of_truncated (h : bytes.length < Config.hdrBytes + payloadLength) :
    finishResponse bytes [version, responseType, sequenceNumber, timestamp, payloadLength] = .truncatedPacket :=
  if_pos h

/-- A complete packet gives its fields and exactly the declared number of payload bytes (R156). -/
theorem finishResponse_of_complete (h : Config.hdrBytes + payloadLength ≤ bytes.length) :
    finishResponse bytes [version, responseType, sequenceNumber, timestamp, payloadLength] = .ok
      ⟨version, responseType, sequenceNumber, timestamp, payloadLength,
        (bytes.drop Config.hdrBytes).take payloadLength⟩ :=
  if_neg (not_lt.2 h)

end

end Sys2Proof.Machine
end

section
/-! The statements of 43_packet_layer.md about responses. -/

namespace Sys2Proof.Machine

/-- Settles O50: values the host can express are registers, which fit the layout and give ENCHDR's twelve bytes or do
not fit it; a value the host cannot express is a ValueError of its own. -/
theorem buildrspGivesHeaderAndPayload : Obligations.BuildrspGivesHeaderAndPayload := by
  unfold Obligations.BuildrspGivesHeaderAndPayload
  intro version responseType sequenceNumber timestamp payload s
  refine ⟨fun hversion htype hsequence htime hlength => ?_, fun hout => ?_⟩
  · obtain ⟨f, rfl, rfl, rfl, rfl, hpayload⟩ := exists_registers (hversion.trans (by decide))
      (htype.trans (by decide)) (hsequence.trans (by decide)) htime hlength
    have hfit : fieldsFit .rsp f = true := (fieldsFit_rsp_iff f).2 ⟨hversion, htype, hsequence⟩
    have hbytes := (responseRegisters_encodeHeaderBuf hfit).bytes_eq (reserved_bits_encodeHeaderBuf_rsp f)
    rw [buildRsp_registers hpayload, encodeHeaderMacro_of_fieldsFit hfit, hbytes, hpayload, PacketResult.map_ok]
  · by_cases hwide : ∃ v ∈ [version, responseType, sequenceNumber, timestamp, payload.length], 2 ^ 32 ≤ v
    · exact congrArg (PacketResult.map (· ++ payload)) (encodeHeaderMacro_of_not_expressible .rsp (by simp) hwide s)
    · simp only [not_exists, not_and, not_le, List.forall_mem_cons] at hwide
      obtain ⟨h0, h1, h2, h3, h4, -⟩ := hwide
      obtain ⟨f, rfl, rfl, rfl, rfl, hpayload⟩ := exists_registers h0 h1 h2 h3 h4
      have hfit : ¬ fieldsFit .rsp f = true := fun hfit => by
        rw [fieldsFit_rsp_iff] at hfit
        omega
      rw [buildRsp_registers hpayload, encodeHeaderMacro_of_not_fieldsFit hfit, PacketResult.map_blockFault]

/-- Settles O52: the header's twelve bytes are decoded to its five numbers, and the length test decides the rest. -/
theorem parserspDecodesOrIsTruncated : Obligations.ParserspDecodesOrIsTruncated := by
  unfold Obligations.ParserspDecodesOrIsTruncated
  refine fun bytes s hwf => ⟨fun hshort => if_pos hshort, ?_⟩
  intro b0 b1 b2 b3 b4 b5 b6 b7 b8 b9 b10 b11 rest hbytes n hn
  have hlength : bytes.length = Config.hdrBytes + rest.length := by
    rw [hbytes, Nat.add_comm]
    rfl
  have hheader : bytes.take Config.hdrBytes = [b0, b1, b2, b3, b4, b5, b6, b7, b8, b9, b10, b11] := by
    rw [hbytes]
    rfl
  have hrest : bytes.drop Config.hdrBytes = rest := by
    rw [hbytes]
    rfl
  rw [parseRsp_of_header (by omega), hheader, decodeHeaderMacro_rsp hwf, ← hn, PacketResult.andThen_ok]
  refine ⟨fun hshort => finishResponse_of_truncated (by omega), fun hcomplete => ?_⟩
  rw [finishResponse_of_complete (by omega), hrest]

end Sys2Proof.Machine
end

section
/-! SUPPORT. The one fault a word reports: its first cause in the order of R185, IllegalCommand before the others. The
word ends with that fault, or with a response of code 0 when it has no cause (60_exceptions.md R181 to R187). -/

namespace Sys2Proof.Machine

/-- A command ends with the fault it is to report, or with a response of code 0 when there is none. -/
def EndsAs (s t : State) : Option FaultKind → Prop
  | some k => EndsFault s t k
  | none => ∃ d, t.response = some ⟨0, d⟩

/-- The fault a word reports: IllegalCommand at decoding, else the first cause of its command (R185). -/
def wordFault (f : FieldFile) (w : CommandWord) : Option FaultKind :=
  match decode w with
  | .error _ => some .illegalCommand
  | .ok i => firstFault f i

theorem wordFault_of_decode_ok {w : CommandWord} {i : Instr} (h : decode w = .ok i) (f : FieldFile) :
    wordFault f w = firstFault f i := by
  simp [wordFault, h]

theorem wordFault_of_decode_error {w : CommandWord} {e : DecodeError} (h : decode w = .error e) (f : FieldFile) :
    wordFault f w = some .illegalCommand := by
  simp [wordFault, h]

/-- How a word ended says which fault it reported: the four codes differ, and none of them is 0 (R180). -/
theorem EndsAs.endsFault_iff {s t : State} {o : Option FaultKind} (h : EndsAs s t o) (k : FaultKind) :
    EndsFault s t k ↔ o = some k := by
  refine ⟨fun hk => ?_, fun ho => ?_⟩
  · obtain ⟨-, -, hlast, -, hresponse⟩ := hk
    cases o with
    | none =>
      obtain ⟨d, hd⟩ := h
      rw [hd] at hresponse
      exact absurd (congrArg Response.code (Option.some.inj hresponse)).symm k.code_ne_zero
    | some j =>
      obtain ⟨-, -, hlast', -, -⟩ := h
      rw [← j.ofCode_code, ← k.ofCode_code, ← hlast', hlast]
  · subst ho
    exact h

/-- A response with a fault code is the end of a word that reported that fault (R186). -/
theorem EndsAs.endsFault_of_code_ne_zero {s t : State} {o : Option FaultKind} (h : EndsAs s t o) {r : Response}
    (hr : t.response = some r) (hcode : r.code ≠ 0) : ∃ k, k.code = r.code ∧ EndsFault s t k := by
  cases o with
  | none =>
    obtain ⟨d, hd⟩ := h
    rw [hr] at hd
    exact absurd (congrArg Response.code (Option.some.inj hd)) hcode
  | some k =>
    refine ⟨k, ?_, h⟩
    obtain ⟨-, -, -, -, hresponse⟩ := h
    rw [hr] at hresponse
    exact (congrArg Response.code (Option.some.inj hresponse)).symm

section
variable {f : FieldFile} {i : Instr}

theorem firstFault_of_lengthCause (hlength : lengthCause i = true) : firstFault f i = some .lengthError := by
  simp [firstFault, hlength]

theorem firstFault_of_rangeCause (hlength : lengthCause i = false) (hrange : rangeCause i = true) :
    firstFault f i = some .rangeError := by
  simp [firstFault, hlength, hrange]

theorem firstFault_of_valueCause (hlength : lengthCause i = false) (hrange : rangeCause i = false)
    (hvalue : valueCause f i = true) : firstFault f i = some .valueError := by
  simp [firstFault, hlength, hrange, hvalue]

theorem firstFault_of_no_cause (hlength : lengthCause i = false) (hrange : rangeCause i = false)
    (hvalue : valueCause f i = false) : firstFault f i = none := by
  simp [firstFault, hlength, hrange, hvalue]

end

section
variable {i : Instr} {s : State}

theorem endsAs_of_raiseFault {k : FaultKind} (h : exec i s = .next (s.raiseFault k))
    (hk : firstFault s.fld i = some k) : ∃ t, exec i s = .next t ∧ EndsAs s t (firstFault s.fld i) :=
  ⟨_, h, hk ▸ endsFault_raiseFault s k⟩

theorem endsAs_of_respond {u : State} {d : Word} (h : exec i s = .next (u.respond d))
    (hnone : firstFault s.fld i = none) : ∃ t, exec i s = .next t ∧ EndsAs s t (firstFault s.fld i) :=
  ⟨_, h, hnone ▸ ⟨d, rfl⟩⟩

end

/-- No cause of a decoded command is IllegalCommand (R184, R185). -/
theorem firstFault_ne_illegalCommand (f : FieldFile) (i : Instr) : firstFault f i ≠ some .illegalCommand := by
  unfold firstFault
  split
  · simp
  · split
    · simp
    · split <;> simp

/-- The value cause of ENCHDR is a register that does not fit its field (R111, R112, R181). -/
theorem valueCause_enchdrOf (l : Layout) (f : FieldFile) :
    valueCause f (enchdrOf l) = true ↔ ¬ fieldsFit l f = true := by
  cases l with
  | req => rw [fieldsFit_req_iff]; simp only [enchdrOf, valueCause, decide_eq_true_eq]; omega
  | rsp => rw [fieldsFit_rsp_iff]; simp only [enchdrOf, valueCause, decide_eq_true_eq]; omega

/-- ENCHDR faults exactly when a register does not fit (R111, R112, R181). -/
theorem enchdrOf_endsAs (l : Layout) (s : State) :
    ∃ t, exec (enchdrOf l) s = .next t ∧ EndsAs s t (firstFault s.fld (enchdrOf l)) := by
  have hlength : lengthCause (enchdrOf l) = false := by cases l <;> rfl
  have hrange : rangeCause (enchdrOf l) = false := by cases l <;> rfl
  by_cases hfit : fieldsFit l s.fld = true
  · exact endsAs_of_respond (u := s.setBuf (encodeHeaderBuf l s.fld))
      (by rw [exec_enchdrOf, State.encodeHeader, if_pos hfit])
      (firstFault_of_no_cause hlength hrange (Bool.eq_false_iff.2 fun h => (valueCause_enchdrOf l _).1 h hfit))
  · exact endsAs_of_raiseFault (by rw [exec_enchdrOf, State.encodeHeader, if_neg hfit])
      (firstFault_of_valueCause hlength hrange ((valueCause_enchdrOf l _).2 hfit))

/-- WRFIELD faults on a length above 32, then on a field outside BUF, then on a value too wide (R90, R185). -/
theorem wrfield_endsAs (off : BitVec 16) (len : BitVec 8) (val : Word) (s : State) :
    ∃ t, exec (.wrfield off len val) s = .next t ∧ EndsAs s t (firstFault s.fld (.wrfield off len val)) := by
  by_cases hlen : 32 < len.toNat
  · exact endsAs_of_raiseFault (exec_wrfield_of_fieldFault s ((fieldFault_lengthError_iff _ _).2 hlen))
      (firstFault_of_lengthCause (decide_eq_true hlen))
  by_cases hout : 96 < off.toNat + len.toNat
  · exact endsAs_of_raiseFault
      (exec_wrfield_of_fieldFault s ((fieldFault_rangeError_iff _ _).2 ⟨not_lt.1 hlen, hout⟩))
      (firstFault_of_rangeCause (decide_eq_false hlen) (decide_eq_true hout))
  by_cases hval : 2 ^ len.toNat ≤ val.toNat
  · exact endsAs_of_raiseFault (exec_wrfield_of_not_fits s (not_lt.1 hlen) (not_lt.1 hout) hval)
      (firstFault_of_valueCause (decide_eq_false hlen) (decide_eq_false hout) (decide_eq_true hval))
  · exact endsAs_of_respond (exec_wrfield_of_legal s (not_lt.1 hlen) (not_lt.1 hout) (not_le.1 hval))
      (firstFault_of_no_cause (decide_eq_false hlen) (decide_eq_false hout) (decide_eq_false hval))

/-- RDFIELD faults on a length above 32, then on a field outside BUF (R91, R185). -/
theorem rdfield_endsAs (off : BitVec 16) (len : BitVec 8) (s : State) :
    ∃ t, exec (.rdfield off len) s = .next t ∧ EndsAs s t (firstFault s.fld (.rdfield off len)) := by
  by_cases hlen : 32 < len.toNat
  · exact endsAs_of_raiseFault (exec_rdfield_of_fieldFault s ((fieldFault_lengthError_iff _ _).2 hlen))
      (firstFault_of_lengthCause (decide_eq_true hlen))
  by_cases hout : 96 < off.toNat + len.toNat
  · exact endsAs_of_raiseFault
      (exec_rdfield_of_fieldFault s ((fieldFault_rangeError_iff _ _).2 ⟨not_lt.1 hlen, hout⟩))
      (firstFault_of_rangeCause (decide_eq_false hlen) (decide_eq_true hout))
  · exact endsAs_of_respond (exec_rdfield_of_legal s (not_lt.1 hlen) (not_lt.1 hout))
      (firstFault_of_no_cause (decide_eq_false hlen) (decide_eq_false hout) rfl)

/-- PUTBYTE faults on an index outside BUF, then on a value above 255 (R131, R185). -/
theorem putbyte_endsAs (idx : BitVec 16) (byte : Word) (s : State) :
    ∃ t, exec (.putbyte idx byte) s = .next t ∧ EndsAs s t (firstFault s.fld (.putbyte idx byte)) := by
  by_cases hidx : 12 ≤ idx.toNat
  · exact endsAs_of_raiseFault (exec_putbyte_of_outside s hidx)
      (firstFault_of_rangeCause rfl (decide_eq_true hidx))
  by_cases hbyte : 256 ≤ byte.toNat
  · exact endsAs_of_raiseFault (exec_putbyte_of_not_fits s (not_le.1 hidx) hbyte)
      (firstFault_of_valueCause rfl (decide_eq_false hidx) (decide_eq_true hbyte))
  · exact endsAs_of_respond (exec_putbyte_of_legal s (not_le.1 hidx) (not_le.1 hbyte))
      (firstFault_of_no_cause rfl (decide_eq_false hidx) (decide_eq_false hbyte))

/-- GETBYTE faults on an index outside BUF (R132). -/
theorem getbyte_endsAs (idx : BitVec 16) (s : State) :
    ∃ t, exec (.getbyte idx) s = .next t ∧ EndsAs s t (firstFault s.fld (.getbyte idx)) := by
  by_cases hidx : 12 ≤ idx.toNat
  · exact endsAs_of_raiseFault (exec_getbyte_of_outside s hidx)
      (firstFault_of_rangeCause rfl (decide_eq_true hidx))
  · exact endsAs_of_respond (exec_getbyte_of_legal s (not_le.1 hidx))
      (firstFault_of_no_cause rfl (decide_eq_false hidx) rfl)

/-- SETFLD faults on a register that does not exist (R133). -/
theorem setfld_endsAs (idx : BitVec 16) (val : Word) (s : State) :
    ∃ t, exec (.setfld idx val) s = .next t ∧ EndsAs s t (firstFault s.fld (.setfld idx val)) := by
  by_cases hidx : 5 ≤ idx.toNat
  · exact endsAs_of_raiseFault (exec_setfld_of_outside s hidx)
      (firstFault_of_rangeCause rfl (decide_eq_true hidx))
  · exact endsAs_of_respond (exec_setfld_of_legal s (not_le.1 hidx))
      (firstFault_of_no_cause rfl (decide_eq_false hidx) rfl)

/-- GETFLD faults on a register that does not exist (R134). -/
theorem getfld_endsAs (idx : BitVec 16) (s : State) :
    ∃ t, exec (.getfld idx) s = .next t ∧ EndsAs s t (firstFault s.fld (.getfld idx)) := by
  by_cases hidx : 5 ≤ idx.toNat
  · exact endsAs_of_raiseFault (exec_getfld_of_outside s hidx)
      (firstFault_of_rangeCause rfl (decide_eq_true hidx))
  · obtain ⟨v, hv⟩ := Option.ne_none_iff_exists'.1 (mt (s.fld.get?_eq_none_iff _).1 hidx)
    exact endsAs_of_respond (exec_getfld_of_get? s hv)
      (firstFault_of_no_cause rfl (decide_eq_false hidx) rfl)

/-- Every command ends with its first fault, or with code 0 when it has none (R185). -/
theorem exec_endsAs (i : Instr) (s : State) : ∃ t, exec i s = .next t ∧ EndsAs s t (firstFault s.fld i) := by
  cases i with
  | wrfield off len val => exact wrfield_endsAs off len val s
  | rdfield off len => exact rdfield_endsAs off len s
  | putbyte idx byte => exact putbyte_endsAs idx byte s
  | getbyte idx => exact getbyte_endsAs idx s
  | setfld idx val => exact setfld_endsAs idx val s
  | getfld idx => exact getfld_endsAs idx s
  | getstat => exact ⟨_, rfl, _, rfl⟩
  | clrbuf | clrfld | dechdrReq | dechdrRsp => exact endsAs_of_respond rfl rfl
  | enchdrReq => exact enchdrOf_endsAs .req s
  | enchdrRsp => exact enchdrOf_endsAs .rsp s

/-- Every word ends with the fault it reports, or with code 0 when it has none (R185). -/
theorem execWord_endsAs (w : CommandWord) (s : State) :
    ∃ t, execWord w s = .next t ∧ EndsAs s t (wordFault s.fld w) := by
  cases hd : decode w with
  | ok i =>
    rw [execWord_of_decode_ok hd, wordFault_of_decode_ok hd]
    exact exec_endsAs i s
  | error e =>
    rw [wordFault_of_decode_error hd]
    exact endsFault_of_decode_error hd s

/-- The same, of the state a word is known to leave. -/
theorem endsAs_of_execWord {w : CommandWord} {s t : State} (h : execWord w s = .next t) :
    EndsAs s t (wordFault s.fld w) := by
  obtain ⟨u, hu, hends⟩ := execWord_endsAs w s
  rw [h, Host.Outcome.next.injEq] at hu
  exact hu ▸ hends

/-- A word reports IllegalCommand exactly when it decodes to no command (R184, R185). -/
theorem wordFault_illegalCommand_iff (f : FieldFile) (w : CommandWord) :
    wordFault f w = some .illegalCommand ↔ ∀ i, decode w ≠ .ok i := by
  cases hd : decode w with
  | ok i => simp [wordFault_of_decode_ok hd, firstFault_ne_illegalCommand]
  | error e => simp [wordFault_of_decode_error hd]

/-- A word decodes to no command exactly when it selects no row of the opcode map by match and mask (R76, R79). -/
theorem decode_ne_ok_iff_selects_no_row (w : CommandWord) :
    (∀ i, decode w ≠ .ok i) ↔ ∀ r ∈ opcodeTable, w &&& r.maskBits ≠ r.matchBits := by
  constructor
  · intro h r hr hsel
    obtain ⟨i, hd, -⟩ := (selects_iff_exists_decode hr w).1 (beq_iff_eq.2 hsel)
    exact h i hd
  · intro h i hd
    have hrow : i.row ∈ opcodeTable := (mem_opcodeTable_iff _).2 ⟨i, rfl⟩
    exact h i.row hrow (beq_iff_eq.1 ((selects_iff_exists_decode hrow w).2 ⟨i, hd, rfl⟩))

end Sys2Proof.Machine
end

section
/-! The statements of 60_exceptions.md. -/

namespace Sys2Proof.Machine

/-- Settles O13: a word ends with IllegalCommand when that is the fault it reports, so when it decodes to no command,
so when it selects no row. -/
theorem wordsSelectingNoRowTakeIllegalCommand : Obligations.WordsSelectingNoRowTakeIllegalCommand := by
  unfold Obligations.WordsSelectingNoRowTakeIllegalCommand
  intro w s t h
  rw [(endsAs_of_execWord h).endsFault_iff, wordFault_illegalCommand_iff, decode_ne_ok_iff_selects_no_row]

/-- Settles O42: every command's checks come in the order of its causes, and a word is decoded before them. -/
theorem faultsExactlyOnTheirCausesInOrder : Obligations.FaultsExactlyOnTheirCausesInOrder := by
  unfold Obligations.FaultsExactlyOnTheirCausesInOrder
  refine ⟨exec_endsAs, fun w s => ?_⟩
  cases hd : decode w with
  | ok i =>
    rw [execWord_of_decode_ok hd]
    exact exec_endsAs i s
  | error e => exact endsFault_of_decode_error hd s

/-- Settles O43: a word ends with a fault, which is as R186 says, or with code 0. -/
theorem aFaultChangesOnlyStatus : Obligations.AFaultChangesOnlyStatus := by
  unfold Obligations.AFaultChangesOnlyStatus
  exact fun w s t r h hr hcode => (endsAs_of_execWord h).endsFault_of_code_ne_zero hr hcode

/-- Settles O44: a fault leaves BUF and FLD, from which alone the next word is answered, and FAULTED is sticky. -/
theorem aFaultDoesNotAffectTheNextCommand : Obligations.AFaultDoesNotAffectTheNextCommand := by
  unfold Obligations.AFaultDoesNotAffectTheNextCommand
  rintro w1 w2 s t k - ⟨hbuf, hfld, -, hfaulted, -⟩
  obtain ⟨v, u, hv, hu, hsameBuf, hsameFld, hsameResponse⟩ := execWord_congr w2 hbuf hfld
  obtain ⟨u', r, hu', -, hsticky⟩ := execWord_statusFaulted w2 t
  rw [hu, Host.Outcome.next.injEq] at hu'
  subst hu'
  exact ⟨u, v, hu, hv, hsameBuf, hsameFld, hsameResponse, by rw [hsticky, hfaulted, Bool.true_or]⟩

end Sys2Proof.Machine
end

section
/-! The statement of 70_reset_and_hazards.md. -/

namespace Sys2Proof.Machine

/-- A reset at the head of the host's list is what the step applies, whatever command it interrupts (R191, R210). -/
theorem step_of_pending_reset {s : State} {inProgress : Option CommandWord} {es : List PortEvent}
    (h : s.pending = .reset inProgress :: es) : step s = .next (State.applyReset { s with pending := es }) := by
  obtain ⟨hidle, -⟩ | ⟨w, es', hword, -⟩ | ⟨o, es', hreset, hstep⟩ := step_cases s
  · simp [h] at hidle
  · simp [h] at hword
  · obtain ⟨-, rfl⟩ : inProgress = o ∧ es = es' := by simpa [h] using hreset
    exact hstep

/-- Nothing of the state before a reset is left in the state after it but the host's list, so without that list the
two are the reset state (R211). -/
theorem State.applyReset_clearPending (s : State) : { s.applyReset with pending := [] } = State.reset := rfl

/-- Settles O2: the step applies the reset, after which the state is the reset state (R33) but for the host's list. -/
theorem resetEventRestoresResetValues : Obligations.ResetEventRestoresResetValues := by
  unfold Obligations.ResetEventRestoresResetValues
  intro s inProgress es h
  refine ⟨_, step_of_pending_reset h, fun i _ => ?buf, State.applyReset_fld _, State.applyReset_status _,
    State.applyReset_response _, fun w => ?nextWord⟩
  case buf => exact Memory.read_cleared i
  case nextWord => rw [State.applyReset_clearPending]

end Sys2Proof.Machine
end

section
/-! SUPPORT. What a step keeps: the host's list, which no command looks at, and the invariant (10_state.md section 4).
-/

namespace Sys2Proof.Machine

/-- An answer neither reads nor changes what the host has yet to present. -/
theorem Answer.apply_setPending (a : Answer) (s : State) (es : List PortEvent) :
    a.apply { s with pending := es } = { a.apply s with pending := es } := by
  cases a <;> rfl

theorem Answer.apply_pending (a : Answer) (s : State) : (a.apply s).pending = s.pending := by
  cases a <;> rfl

/-- A command's effect is the same whatever list of events stands beside it. -/
theorem exec_setPending {i : Instr} {s t : State} (h : exec i s = .next t) (es : List PortEvent) :
    t.pending = s.pending ∧ exec i { s with pending := es } = .next { t with pending := es } := by
  by_cases hi : i = .getstat
  · subst hi
    cases h
    exact ⟨rfl, rfl⟩
  · obtain ⟨a, ha⟩ := exec_answer i hi s.buf s.fld
    rw [ha s rfl rfl, Host.Outcome.next.injEq] at h
    subst h
    exact ⟨a.apply_pending s, by rw [ha { s with pending := es } rfl rfl, a.apply_setPending]⟩

/-- A word leaves the list of the events behind it as it is. -/
theorem execWord_pending {w : CommandWord} {s t : State} (h : execWord w s = .next t) : t.pending = s.pending := by
  obtain ⟨i, -, hexec⟩ | ⟨e, -, hillegal⟩ := execWord_cases w s
  · exact (exec_setPending (hexec ▸ h) []).1
  · rw [hillegal, Host.Outcome.next.injEq] at h
    rw [← h]
    rfl

/-- A word at the head of the host's list is the one the step executes (R26, R27). -/
theorem step_of_pending_command {s : State} {w : CommandWord} {es : List PortEvent} (h : s.pending = .command w :: es) :
    step s = execWord w { s with pending := es } := by
  obtain ⟨hidle, -⟩ | ⟨w', es', hword, hstep⟩ | ⟨o, es', hreset, -⟩ := step_cases s
  · simp [h] at hidle
  · obtain ⟨rfl, rfl⟩ : w = w' ∧ es = es' := by simpa [h] using hword
    exact hstep
  · simp [h] at hreset

/-- STATUS written from a FAULTED and a LAST is legal when LAST is a code, and a fault code has set FAULTED (R28,
R30). -/
theorem statusLegal_statusOf (faulted : Bool) (last : BitVec 3) :
    statusLegal (statusOf faulted last) = (decide (last.toNat ≤ 4) && (faulted || last == 0)) := by
  revert faulted last
  decide

theorem statusLegal_afterOk (st : BitVec 8) : statusLegal (statusAfterOk st) = true := by
  simp [statusAfterOk, statusLegal_statusOf]

theorem statusLegal_afterFault (k : FaultKind) : statusLegal (statusAfterFault k) = true := by
  rw [statusAfterFault, statusLegal_statusOf]
  cases k <;> rfl

/-- A fault keeps BUF and writes a legal STATUS (R186). -/
theorem State.Inv.after_raiseFault {s : State} (h : s.Inv) (k : FaultKind) : (s.raiseFault k).Inv :=
  ⟨h.left, statusLegal_afterFault k⟩

/-- Every command keeps BUF canonical and STATUS legal. -/
theorem State.Inv.after_exec {i : Instr} {s t : State} (h : s.Inv) (hexec : exec i s = .next t) : t.Inv := by
  obtain ⟨k, -, rfl⟩ | ⟨m, f, d, rfl, hm⟩ | ⟨-, rfl⟩ := exec_cases i s t hexec
  · exact h.after_raiseFault k
  · exact ⟨hm h.left, statusLegal_afterOk s.status⟩
  · exact h

/-- Every word, illegal ones included, keeps BUF canonical and STATUS legal. -/
theorem State.Inv.after_execWord {w : CommandWord} {s t : State} (h : s.Inv) (hexec : execWord w s = .next t) :
    t.Inv := by
  obtain ⟨i, -, hi⟩ | ⟨e, -, hillegal⟩ := execWord_cases w s
  · exact h.after_exec (hi ▸ hexec)
  · rw [hillegal, Host.Outcome.next.injEq] at hexec
    exact hexec ▸ h.after_raiseFault .illegalCommand

/-- The state after reset has the invariant, and the host's list is no part of it (R33). -/
theorem State.inv_reset (es : List PortEvent) : State.Inv { State.reset with pending := es } :=
  ⟨Memory.wf_cleared, statusLegal_statusOf false 0⟩

end Sys2Proof.Machine
end

section
/-! The statements about the step and its invariant. -/

namespace Sys2Proof.Machine

/-- Settles O7: a step is idle, runs a word or resets, and each of the three keeps the invariant. -/
theorem everyStepKeepsTheInvariant : Obligations.EveryStepKeepsTheInvariant := by
  unfold Obligations.EveryStepKeepsTheInvariant
  intro s t hinv hstep
  obtain ⟨-, hidle⟩ | ⟨w, es, -, hword⟩ | ⟨o, es, -, hreset⟩ := step_cases s
  · rw [hidle, Host.Outcome.next.injEq] at hstep
    exact hstep ▸ hinv
  · have hinv' : State.Inv { s with pending := es } := hinv
    exact hinv'.after_execWord (hword ▸ hstep)
  · rw [hreset, Host.Outcome.next.injEq] at hstep
    exact hstep ▸ State.inv_reset es

/-- Settles O8: the reset BUF lists no byte, and the reset STATUS is 0. -/
theorem resetHasTheInvariant : Obligations.ResetHasTheInvariant := by
  unfold Obligations.ResetHasTheInvariant
  exact State.inv_reset

/-- Settles O5: a command's answer is fixed by BUF and FLD, and GETSTAT looks at STATUS only. -/
theorem commandsLeaveTheHostsListAlone : Obligations.CommandsLeaveTheHostsListAlone := by
  unfold Obligations.CommandsLeaveTheHostsListAlone
  exact fun i s t es h => exec_setPending h es

/-- Settles O6: the word at the head of the list is executed, and ends with the fault it reports or with code 0. -/
theorem everyWordIsAnsweredInOneStep : Obligations.EveryWordIsAnsweredInOneStep := by
  unfold Obligations.EveryWordIsAnsweredInOneStep
  intro s w es h
  obtain ⟨t, hexec, hends⟩ := execWord_endsAs w { s with pending := es }
  refine ⟨t, (step_of_pending_command h).trans hexec, execWord_pending hexec, ?_⟩
  cases hfault : wordFault s.fld w with
  | none =>
    rw [hfault] at hends
    exact .inl hends
  | some k =>
    rw [hfault] at hends
    exact .inr ⟨k, hends⟩

/-- Settles O3: the word at the head of the list is executed, and a word that decodes runs its command. -/
theorem stepRunsTheDecodedCommand : Obligations.StepRunsTheDecodedCommand := by
  unfold Obligations.StepRunsTheDecodedCommand
  intro s w es i h hdecode _
  rw [step_of_pending_command h, execWord_of_decode_ok hdecode]

/-- Settles O4: of the three kinds of step only the idle one has no event at the port. -/
theorem idleStepChangesNothing : Obligations.IdleStepChangesNothing := by
  unfold Obligations.IdleStepChangesNothing
  intro s h
  obtain ⟨-, hidle⟩ | ⟨w, es, hword, -⟩ | ⟨o, es, hreset, -⟩ := step_cases s
  · exact hidle
  · simp [h] at hword
  · simp [h] at hreset

/-- FAULTED after one issued word: 0 exactly when it was 0 and the word was answered with code 0 (R30). -/
theorem noFaultRecorded_issueWord (w : CommandWord) (s : State) :
    (issueWord w s).1.noFaultRecorded = true ↔
      s.noFaultRecorded = true ∧ ∃ d, (issueWord w s).2 = some ⟨0, d⟩ := by
  obtain ⟨t, ⟨code, data⟩, hexec, hresponse, hfaulted⟩ := execWord_statusFaulted w s
  rw [issueWord_eq w s t hexec]
  simp [State.noFaultRecorded, hfaulted, hresponse]

/-- Settles O47: by induction on the run, FAULTED staying 0 over its first word exactly when that word succeeded. -/
theorem noFaultRecordedMeansEveryWordSucceeded : Obligations.NoFaultRecordedMeansEveryWordSucceeded := by
  unfold Obligations.NoFaultRecordedMeansEveryWordSucceeded
  intro ws
  induction ws with
  | nil => simp [runWords]
  | cons w ws ih =>
    intro s
    rw [runWords, List.forall_mem_cons, ih, noFaultRecorded_issueWord, and_assoc]

end Sys2Proof.Machine
end

section
/-! The round trips and the examples of 30_encoding.md. -/

namespace Sys2Proof.Machine

/-- Settles O9: the fields of the encoding are the command's own, and a well-formed command is one the block has. -/
theorem decodeOfEncodeIsTheCommand : Obligations.DecodeOfEncodeIsTheCommand := by
  unfold Obligations.DecodeOfEncodeIsTheCommand
  intro nbytes i hwf
  obtain ⟨-, hheader⟩ := Bool.and_eq_true_iff.1 hwf
  have hsize : i.isHeader = true → (nbytes == Config.hdrBytes) = true := fun hi => by
    simpa [Instr.headerOk, hi] using hheader
  rw [decodeFor, encode, wordOp_formatC, wordA_formatC, wordB_formatC, wordImm_formatC]
  exact decodeFields_of_instr _ i hsize

/-- Settles O10: each arm of the opcode map checks every field that is no operand to be zero. -/
theorem encodeOfDecodeIsTheWord : Obligations.EncodeOfDecodeIsTheWord := by
  unfold Obligations.EncodeOfDecodeIsTheWord
  intro nbytes w i h
  rw [encode_of_decodeFields h, formatC_fields]

/-- Settles O14: each word is the encoding of the command beside it. -/
theorem exampleWordsDecode : Obligations.ExampleWordsDecode := by
  unfold Obligations.ExampleWordsDecode
  simp only [decode_eq_ok_iff]
  decide

/-- Settles O58: the assembler's functions run on the three lines. -/
theorem assemblerExamples : Obligations.AssemblerExamples := by
  unfold Obligations.AssemblerExamples
  decide

end Sys2Proof.Machine
end

section
/-! SUPPORT. Fields as digits of the whole buffer, and two field writes one after the other (20_memory.md section 2,
40_bitfield.md sections 3 and 4). -/

namespace Sys2Proof.Machine

/-- A field is the quotient of W by the weight of its last bit, cut to `len` bits (R43). -/
theorem Memory.readField_eq_digits (m : Memory) {off len : Nat} (hin : off + len ≤ 96) :
    m.readField off len = m.whole / 2 ^ (96 - off - len) % 2 ^ len :=
  Nat.eq_of_testBit_eq fun j => by
    rw [m.testBit_readField, Nat.testBit_mod_two_pow, Nat.testBit_div_two_pow, m.testBit_whole]
    by_cases hj : j < len
    · have hlow : j + (96 - off - len) < Config.bufBits := by simp only [Config.bufBits, Config.nbytes]; omega
      have hbit : Config.bufBits - 1 - (j + (96 - off - len)) = off + len - 1 - j := by
        simp only [Config.bufBits, Config.nbytes]; omega
      rw [hbit, decide_eq_true hlow, Bool.true_and]
    · simp [hj]

/-- W is the field of all 96 bits (R43). -/
theorem Memory.whole_eq_readField (m : Memory) : m.whole = m.readField 0 96 :=
  Nat.eq_of_testBit_eq fun j => by
    rw [m.testBit_whole, m.testBit_readField]
    rfl

/-- A bit is the field of length 1 at its index (R91). -/
theorem Memory.readField_one (m : Memory) (k : Nat) : m.readField k 1 = (m.bit k).toNat := by
  simp [Memory.readField, Memory.readFieldFrom]

/-- A field of whole bytes is the sum of the bytes, the first the heaviest (R43). -/
theorem Memory.readField_bytes (m : Memory) (i : Nat) : ∀ n,
    m.readField (8 * i) (8 * n) = ∑ j ∈ Finset.range n, (m.read (i + j)).toNat * 256 ^ (n - 1 - j)
  | 0 => rfl
  | n + 1 => by
    have hshift : ∀ j ∈ Finset.range n, (m.read (i + j)).toNat * 256 ^ (n + 1 - 1 - j) =
        (m.read (i + j)).toNat * 256 ^ (n - 1 - j) * 2 ^ 8 := fun j hj => by
      have hjn := Finset.mem_range.1 hj
      rw [show n + 1 - 1 - j = (n - 1 - j) + 1 by omega, pow_succ, ← mul_assoc]
      rfl
    rw [Nat.mul_succ, m.readField_add, m.readField_bytes i n, ← Nat.mul_add, m.readField_byte, Finset.sum_range_succ,
      Finset.sum_congr rfl hshift, Finset.sum_mul]
    simp

/-- W around a field: the bits before it, the field, and the bits behind it. -/
theorem Memory.whole_eq_parts (m : Memory) {off len : Nat} (hin : off + len ≤ 96) :
    m.whole = m.readField 0 off * 2 ^ (96 - off) + m.readField off len * 2 ^ (96 - off - len) +
      m.readField (off + len) (96 - off - len) := by
  conv_lhs => rw [m.whole_eq_readField, show 96 = off + (96 - off) by omega, m.readField_add, Nat.zero_add,
    show 96 - off = len + (96 - off - len) by omega, m.readField_add]
  rw [show len + (96 - off - len) = 96 - off by omega, Nat.add_assoc]

section
variable {m : Memory} {v v1 v2 off off1 off2 len len1 len2 : Nat}

/-- A field apart from the one written reads as before (R93). -/
theorem Memory.readField_writeField_apart (hwf : m.wf = true) (hin : off1 + len1 ≤ Config.bufBits)
    (h : off1 + len1 ≤ off2 ∨ off2 + len2 ≤ off1) :
    (m.writeField v off1 len1).readField off2 len2 = m.readField off2 len2 :=
  Memory.readField_congr _ _ _ _ fun k hlo hhi => by
    rw [Memory.bit_writeField v k _ _ m hwf hin, if_neg (by omega)]

/-- WRFIELD's loop replaces one summand of W by another (R43, R90). -/
theorem Memory.whole_writeField (hwf : m.wf = true) (hin : off + len ≤ 96) (hv : v < 2 ^ len) :
    (m.writeField v off len).whole =
      m.whole - m.readField off len * 2 ^ (96 - off - len) + v * 2 ^ (96 - off - len) := by
  rw [Memory.whole_eq_parts _ hin, m.whole_eq_parts hin, Memory.readField_writeField m v off len hwf hin hv,
    Memory.readField_writeField_apart hwf hin (.inr (Nat.zero_add off).le),
    Memory.readField_writeField_apart hwf hin (.inl le_rfl)]
  omega

/-- The later of two writes of one field wins. -/
theorem Memory.writeField_writeField_same (hwf : m.wf = true) (hin : off + len ≤ Config.bufBits) :
    (m.writeField v1 off len).writeField v2 off len = m.writeField v2 off len := by
  have hwf' := Memory.wf_writeField v1 len off m hwf hin
  refine Memory.ext_of_bits _ _ (Memory.wf_writeField v2 _ _ _ hwf' hin) (Memory.wf_writeField v2 _ _ _ hwf hin)
    fun k _ => ?_
  rw [Memory.bit_writeField _ k _ _ _ hwf' hin, Memory.bit_writeField _ k _ _ _ hwf hin,
    Memory.bit_writeField _ k _ _ _ hwf hin]
  split <;> rfl

/-- Writes of two fields with no bit in common may be done in either order. -/
theorem Memory.writeField_comm (hwf : m.wf = true) (hin1 : off1 + len1 ≤ Config.bufBits)
    (hin2 : off2 + len2 ≤ Config.bufBits) (h : off1 + len1 ≤ off2 ∨ off2 + len2 ≤ off1) :
    (m.writeField v1 off1 len1).writeField v2 off2 len2 = (m.writeField v2 off2 len2).writeField v1 off1 len1 := by
  have hwf1 := Memory.wf_writeField v1 len1 off1 m hwf hin1
  have hwf2 := Memory.wf_writeField v2 len2 off2 m hwf hin2
  refine Memory.ext_of_bits _ _ (Memory.wf_writeField v2 _ _ _ hwf1 hin2) (Memory.wf_writeField v1 _ _ _ hwf2 hin1)
    fun k _ => ?_
  rw [Memory.bit_writeField _ k _ _ _ hwf1 hin2, Memory.bit_writeField _ k _ _ _ hwf hin1,
    Memory.bit_writeField _ k _ _ _ hwf2 hin1, Memory.bit_writeField _ k _ _ _ hwf hin2]
  by_cases hk1 : off1 ≤ k ∧ k < off1 + len1
  · rw [if_neg (by omega), if_pos hk1, if_pos hk1]
  · rw [if_neg hk1, if_neg hk1]

/-- Writing a field is writing the quotient into its first part and the remainder into its second part. -/
theorem Memory.writeField_add (hwf : m.wf = true) (hin : off + (len1 + len2) ≤ Config.bufBits) :
    m.writeField v off (len1 + len2) =
      (m.writeField (v / 2 ^ len2) off len1).writeField (v % 2 ^ len2) (off + len1) len2 := by
  have hin1 : off + len1 ≤ Config.bufBits := by omega
  have hin2 : off + len1 + len2 ≤ Config.bufBits := by omega
  have hwf' := Memory.wf_writeField (v / 2 ^ len2) len1 off m hwf hin1
  refine Memory.ext_of_bits _ _ (Memory.wf_writeField _ _ _ _ hwf hin) (Memory.wf_writeField _ _ _ _ hwf' hin2)
    fun k _ => ?_
  rw [Memory.bit_writeField _ k _ _ _ hwf hin, Memory.bit_writeField _ k _ _ _ hwf' hin2,
    Memory.bit_writeField _ k _ _ _ hwf hin1, Nat.testBit_div_two_pow, Nat.testBit_mod_two_pow]
  by_cases hfirst : off ≤ k ∧ k < off + len1
  · rw [if_pos (by omega), if_neg (by omega), if_pos hfirst]
    congr 1
    omega
  · rw [if_neg hfirst]
    by_cases hsecond : off + len1 ≤ k ∧ k < off + len1 + len2
    · rw [if_pos (by omega), if_pos hsecond, decide_eq_true (by omega), Bool.true_and, Nat.add_assoc]
    · rw [if_neg (by omega), if_neg hsecond]

end

/-- The later of two writes of one byte wins. -/
theorem Memory.write_write_same (m : Memory) {i : Nat} (v1 v2 : Byte) (hwf : m.wf = true) (hi : i < Config.nbytes) :
    (m.write i v1).write i v2 = m.write i v2 := by
  have hwf' := m.wf_write i v1 hwf hi
  refine Memory.ext_of_read _ _ (Memory.wf_write _ i v2 hwf' hi) (m.wf_write i v2 hwf hi) fun j => ?_
  rw [Memory.read_write _ _ _ _ hwf', m.read_write _ _ _ hwf, m.read_write _ _ _ hwf]
  split <;> rfl

/-- The later of two writes of one register wins. -/
theorem FieldFile.set_set_same (f : FieldFile) (v1 v2 : Word) : ∀ i, (f.set i v1).set i v2 = f.set i v2
  | 0 | 1 | 2 | 3 | 4 => rfl
  | _ + 5 => rfl

@[simp] theorem statusAfterOk_afterOk (st : BitVec 8) : statusAfterOk (statusAfterOk st) = statusAfterOk st := by
  simp [statusAfterOk]

/-- Of two commands that write BUF and succeed, the second alone decides the state after both. -/
@[simp] theorem State.respond_setBuf_respond (s : State) (m n : Memory) (c d : Word) :
    (((s.setBuf m).respond c).setBuf n).respond d = (s.setBuf n).respond d := by
  simp [State.respond, State.setBuf]

/-- Of two commands that write FLD and succeed, the second alone decides the state after both. -/
@[simp] theorem State.respond_setFld_respond (s : State) (f g : FieldFile) (c d : Word) :
    (((s.setFld f).respond c).setFld g).respond d = (s.setFld g).respond d := by
  simp [State.respond, State.setFld]

/-- A WRFIELD that ends well leaves its field written, and the state a response of 0 (R90). -/
theorem wrfield_endsOk_state {off : BitVec 16} {len : BitVec 8} {val : Word} {s t : State} {d : Word}
    (h : exec (.wrfield off len val) s = .next t) (hok : EndsOk s t d) :
    off.toNat + len.toNat ≤ 96 ∧ t = (s.setBuf (s.buf.writeField val.toNat off.toNat len.toNat)).respond 0 := by
  obtain ⟨hlen, hin, hval, -⟩ := wrfield_endsOk_cases h hok
  rw [exec_wrfield_of_legal s hlen hin hval, Host.Outcome.next.injEq] at h
  exact ⟨hin, h.symm⟩

end Sys2Proof.Machine
end

section
/-! The consequences of the codec rules in 20_memory.md section 2 and 40_bitfield.md. -/

namespace Sys2Proof.Machine

/-- Settles O30: W is the field of all its bytes, a field is a run of its digits, and a bit is a field of length 1. -/
theorem fieldsAreDigitsOfTheWholeBuffer : Obligations.FieldsAreDigitsOfTheWholeBuffer := by
  unfold Obligations.FieldsAreDigitsOfTheWholeBuffer
  refine fun m => ⟨?_, fun k hk => ?_, fun off len => m.readField_eq_digits⟩
  · have hbytes := m.readField_bytes 0 12
    simp only [Nat.zero_add] at hbytes
    exact m.whole_eq_readField.trans hbytes
  · rw [← m.readField_one, m.readField_eq_digits (by omega), show 96 - k - 1 = 95 - k by omega, pow_one]

/-- Settles O31: the write replaces the field's summand of W and leaves the bits before and behind it. -/
theorem fieldWriteOnTheWholeBuffer : Obligations.FieldWriteOnTheWholeBuffer := by
  unfold Obligations.FieldWriteOnTheWholeBuffer
  intro s off len val hwf hlen hin hval
  refine ⟨_, exec_wrfield_of_legal s hlen hin hval, ?_⟩
  rw [State.respond_buf, State.setBuf_buf, Memory.whole_writeField hwf hin hval, Memory.readField_eq_digits _ hin]

/-- Settles O33: the four successful commands are four writes of BUF, and the writes of one field or of two disjoint
ones compose as the statement says. -/
theorem overlappingAndDisjointFieldWrites : Obligations.OverlappingAndDisjointFieldWrites := by
  unfold Obligations.OverlappingAndDisjointFieldWrites
  intro s off1 off2 len1 len2 v1 v2 t1 t12 t2 t21 hwf h1 hok1 h12 hok12 h2 hok2 h21 hok21
  obtain ⟨hin1, rfl⟩ := wrfield_endsOk_state h1 hok1
  obtain ⟨hin2, rfl⟩ := wrfield_endsOk_state h2 hok2
  obtain ⟨-, rfl⟩ := wrfield_endsOk_state h12 hok12
  obtain ⟨-, rfl⟩ := wrfield_endsOk_state h21 hok21
  simp only [State.respond_setBuf_respond, State.respond_buf, State.setBuf_buf]
  refine ⟨?_, fun hapart => ?_⟩
  · rintro rfl rfl
    rw [Memory.writeField_writeField_same hwf hin1]
  · rw [Memory.writeField_comm hwf hin1 hin2 hapart]

/-- Settles O34: the loops read and write the first part and then the second part, and no operand wraps. -/
theorem fieldIsItsTwoParts : Obligations.FieldIsItsTwoParts := by
  unfold Obligations.FieldIsItsTwoParts
  intro s off len1 len2 val hlen hin
  have hwhole : (len1 + len2).toNat = len1.toNat + len2.toNat := by bv_omega
  have hoff : (off + len1.setWidth 16).toNat = off.toNat + len1.toNat := by bv_omega
  have hlen1 : len1.toNat ≤ 32 := by omega
  have hlen2 : len2.toNat ≤ 32 := by omega
  have hlen' : (len1 + len2).toNat ≤ 32 := by omega
  have hin1 : off.toNat + len1.toNat ≤ 96 := by omega
  have hin2 : (off + len1.setWidth 16).toNat + len2.toNat ≤ 96 := by omega
  have hin' : off.toNat + (len1 + len2).toNat ≤ 96 := by omega
  refine ⟨?_, fun hwf hval => ?_⟩
  · refine ⟨_, _, _, _, _, _, exec_rdfield_of_legal s hlen' hin', rfl, exec_rdfield_of_legal s hlen1 hin1, rfl,
      exec_rdfield_of_legal s hlen2 hin2, rfl, ?_⟩
    rw [toNat_ofNat_readField _ _ hlen', toNat_ofNat_readField _ _ hlen1, toNat_ofNat_readField _ _ hlen2, hwhole,
      hoff, Memory.readField_add]
  · have hquot : val.toNat / 2 ^ len2.toNat < 2 ^ len1.toNat :=
      Nat.div_lt_of_lt_mul (by rwa [← pow_add, Nat.add_comm])
    have hrem : val.toNat % 2 ^ len2.toNat < 2 ^ len2.toNat := Nat.mod_lt _ (Nat.two_pow_pos _)
    have hquot' : (BitVec.ofNat 32 (val.toNat / 2 ^ len2.toNat)).toNat = val.toNat / 2 ^ len2.toNat := by
      rw [BitVec.toNat_ofNat, Nat.mod_eq_of_lt (lt_of_le_of_lt (Nat.div_le_self _ _) val.isLt)]
    have hrem' : (BitVec.ofNat 32 (val.toNat % 2 ^ len2.toNat)).toNat = val.toNat % 2 ^ len2.toNat := by
      rw [BitVec.toNat_ofNat, Nat.mod_eq_of_lt (lt_of_le_of_lt (Nat.mod_le _ _) val.isLt)]
    refine ⟨_, _, exec_wrfield_of_legal s hlen' hin' (hwhole.symm ▸ hval),
      exec_wrfield_of_legal s hlen1 hin1 (hquot'.symm ▸ hquot), ?_⟩
    rw [exec_wrfield_of_legal _ hlen2 hin2 (hrem'.symm ▸ hrem), State.respond_setBuf_respond, State.respond_buf,
      State.setBuf_buf, hquot', hrem', hoff, hwhole, Memory.writeField_add hwf (by rwa [← hwhole])]

end Sys2Proof.Machine
end

section
/-! SUPPORT. The state a command leaves when it has no cause to fault, in one equation for each command; from it what
the commands leave alone and what they leave when issued again (42_access.md R137, 20_memory.md section 4). -/

namespace Sys2Proof.Machine

/-- The state a command leaves when it does not fault. -/
def State.afterSuccess (s : State) : Instr → State
  | .wrfield off len val => (s.setBuf (s.buf.writeField val.toNat off.toNat len.toNat)).respond 0
  | .rdfield off len => s.respond (BitVec.ofNat 32 (s.buf.readField off.toNat len.toNat))
  | .clrbuf => (s.setBuf Memory.cleared).respond 0
  | .putbyte idx byte => (s.setBuf (s.buf.write idx.toNat (BitVec.ofNat 8 byte.toNat))).respond 0
  | .getbyte idx => s.respond ((s.buf.read idx.toNat).setWidth 32)
  | .setfld idx val => (s.setFld (s.fld.set idx.toNat val)).respond 0
  | .getfld idx => s.respond ((s.fld.get? idx.toNat).getD 0)
  | .clrfld => (s.setFld FieldFile.zero).respond 0
  | .getstat => s.respondKeepingLast ((statusRead s.status).setWidth 32)
  | .enchdrReq => (s.setBuf (encodeHeaderBuf .req s.fld)).respond 0
  | .enchdrRsp => (s.setBuf (encodeHeaderBuf .rsp s.fld)).respond 0
  | .dechdrReq => s.decodeHeader .req
  | .dechdrRsp => s.decodeHeader .rsp

/-- A command reports no fault exactly when it has no cause of any kind (R185). -/
theorem firstFault_eq_none_iff (f : FieldFile) (i : Instr) :
    firstFault f i = none ↔ lengthCause i = false ∧ rangeCause i = false ∧ valueCause f i = false := by
  unfold firstFault
  cases lengthCause i <;> cases rangeCause i <;> cases valueCause f i <;> simp

/-- ENCHDR without a cause writes the header of its registers (R111, R112). -/
theorem exec_enchdrOf_of_no_cause {l : Layout} {s : State} (h : valueCause s.fld (enchdrOf l) = false) :
    exec (enchdrOf l) s = .next ((s.setBuf (encodeHeaderBuf l s.fld)).respond 0) := by
  have hfit : fieldsFit l s.fld = true := not_not.1 fun hn => Bool.eq_false_iff.1 h ((valueCause_enchdrOf l _).2 hn)
  rw [exec_enchdrOf, State.encodeHeader, if_pos hfit]

/-- A command without a cause to fault does what its rule says of the legal case. -/
theorem exec_of_no_cause {i : Instr} {s : State} (h : firstFault s.fld i = none) :
    exec i s = .next (s.afterSuccess i) := by
  obtain ⟨hlength, hrange, hvalue⟩ := (firstFault_eq_none_iff _ _).1 h
  cases i with
  | wrfield off len val =>
    exact exec_wrfield_of_legal s (not_lt.1 (of_decide_eq_false hlength)) (not_lt.1 (of_decide_eq_false hrange))
      (not_le.1 (of_decide_eq_false hvalue))
  | rdfield off len =>
    exact exec_rdfield_of_legal s (not_lt.1 (of_decide_eq_false hlength)) (not_lt.1 (of_decide_eq_false hrange))
  | putbyte idx byte =>
    exact exec_putbyte_of_legal s (not_le.1 (of_decide_eq_false hrange)) (not_le.1 (of_decide_eq_false hvalue))
  | getbyte idx => exact exec_getbyte_of_legal s (not_le.1 (of_decide_eq_false hrange))
  | setfld idx val => exact exec_setfld_of_legal s (not_le.1 (of_decide_eq_false hrange))
  | getfld idx =>
    obtain ⟨v, hv⟩ := Option.ne_none_iff_exists'.1 (mt (s.fld.get?_eq_none_iff _).1 (of_decide_eq_false hrange))
    rw [exec_getfld_of_get? s hv, State.afterSuccess, hv, Option.getD_some]
  | enchdrReq => exact exec_enchdrOf_of_no_cause (l := .req) hvalue
  | enchdrRsp => exact exec_enchdrOf_of_no_cause (l := .rsp) hvalue
  | clrbuf | clrfld | getstat | dechdrReq | dechdrRsp => rfl

/-- Everything a command can leave: the end of a fault, or what its rule says of the legal case. -/
theorem exec_fault_or_success {i : Instr} {s t : State} (h : exec i s = .next t) :
    (∃ k, EndsFault s t k) ∨ (firstFault s.fld i = none ∧ t = s.afterSuccess i) := by
  cases hfault : firstFault s.fld i with
  | some k =>
    obtain ⟨u, hu, hends⟩ := exec_endsAs i s
    rw [h, Host.Outcome.next.injEq] at hu
    rw [hfault, ← hu] at hends
    exact .inl ⟨k, hends⟩
  | none =>
    rw [exec_of_no_cause hfault, Host.Outcome.next.injEq] at h
    exact .inr ⟨rfl, h.symm⟩

/-- A command answered with code 0 had no cause to fault (R186). -/
theorem exec_success_of_response {i : Instr} {s t : State} {d : Word} (h : exec i s = .next t)
    (hresponse : t.response = some ⟨0, d⟩) : firstFault s.fld i = none ∧ t = s.afterSuccess i := by
  obtain ⟨k, -, -, -, -, hfault⟩ | hsuccess := exec_fault_or_success h
  · rw [hresponse] at hfault
    exact absurd (congrArg Response.code (Option.some.inj hfault)).symm k.code_ne_zero
  · exact hsuccess

theorem State.afterSuccess_buf (s : State) {i : Instr} (h : mayWriteBuf i = false) :
    (s.afterSuccess i).buf = s.buf := by
  cases i with
  | wrfield | clrbuf | putbyte | enchdrReq | enchdrRsp => cases h
  | rdfield | getbyte | setfld | getfld | clrfld | getstat | dechdrReq | dechdrRsp =>
    simp [State.afterSuccess, State.decodeHeader]

theorem State.afterSuccess_fld (s : State) {i : Instr} (h : mayWriteFld i = false) :
    (s.afterSuccess i).fld = s.fld := by
  cases i with
  | setfld | clrfld | dechdrReq | dechdrRsp => cases h
  | wrfield | rdfield | clrbuf | putbyte | getbyte | getfld | getstat | enchdrReq | enchdrRsp =>
    simp [State.afterSuccess]

/-- A command outside the BUF column of the frame table leaves BUF (R137). -/
theorem exec_buf_of_not_mayWriteBuf {i : Instr} {s t : State} (h : exec i s = .next t)
    (hi : mayWriteBuf i = false) : t.buf = s.buf := by
  obtain ⟨k, hbuf, -⟩ | ⟨-, rfl⟩ := exec_fault_or_success h
  · exact hbuf
  · exact s.afterSuccess_buf hi

/-- A command outside the FLD column of the frame table leaves FLD (R137). -/
theorem exec_fld_of_not_mayWriteFld {i : Instr} {s t : State} (h : exec i s = .next t)
    (hi : mayWriteFld i = false) : t.fld = s.fld := by
  obtain ⟨k, -, hfld, -⟩ | ⟨-, rfl⟩ := exec_fault_or_success h
  · exact hfld
  · exact s.afterSuccess_fld hi

/-- The commands whose checks look at FLD, the two ENCHDR, do not write it (R111, R112). -/
theorem firstFault_afterSuccess (s : State) (i : Instr) :
    firstFault (s.afterSuccess i).fld i = firstFault s.fld i := by
  cases hi : mayWriteFld i with
  | false => rw [s.afterSuccess_fld hi]
  | true =>
    have hunread : ∀ f g : FieldFile, valueCause f i = valueCause g i := fun f g => by
      cases i with
      | enchdrReq | enchdrRsp => cases hi
      | _ => rfl
    rw [firstFault, firstFault, hunread]

/-- A command that leaves BUF and FLD as they are gives the same response again, fault or not (20_memory.md
section 4). -/
theorem exec_response_again {i : Instr} {s t : State} (h : exec i s = .next t) (hbuf : t.buf = s.buf)
    (hfld : t.fld = s.fld) : ∃ u, exec i t = .next u ∧ u.response = t.response := by
  by_cases hi : i = .getstat
  · subst hi
    cases h
    exact ⟨_, rfl, rfl⟩
  · obtain ⟨a, ha⟩ := exec_answer i hi s.buf s.fld
    rw [ha s rfl rfl, Host.Outcome.next.injEq] at h
    refine ⟨_, ha t hbuf hfld, ?_⟩
    rw [← h, Answer.apply_response, Answer.apply_response]

/-- DECHDR's registers do not depend on what FLD held before (R113, R114). -/
theorem State.decodeHeader_decodeHeader (s : State) (l : Layout) :
    (s.decodeHeader l).decodeHeader l = s.decodeHeader l := by
  simp only [State.decodeHeader, State.respond_setFld_respond, State.respond_buf, State.setFld_buf]
  rw [decodeHeaderFld_congr _ s.fld fun _ _ _ => rfl]

/-- A write that succeeds, done again, leaves the same state (20_memory.md section 4). -/
theorem State.afterSuccess_afterSuccess {s : State} {i : Instr} (hwf : s.buf.wf = true)
    (hwrites : (mayWriteBuf i || mayWriteFld i) = true) (hrange : rangeCause i = false) :
    (s.afterSuccess i).afterSuccess i = s.afterSuccess i := by
  cases i with
  | wrfield off len val =>
    simp only [State.afterSuccess, State.respond_setBuf_respond, State.respond_buf, State.setBuf_buf]
    rw [Memory.writeField_writeField_same hwf (not_lt.1 (of_decide_eq_false hrange))]
  | putbyte idx byte =>
    simp only [State.afterSuccess, State.respond_setBuf_respond, State.respond_buf, State.setBuf_buf]
    rw [Memory.write_write_same _ _ _ hwf (not_le.1 (of_decide_eq_false hrange))]
  | setfld idx val =>
    simp only [State.afterSuccess, State.respond_setFld_respond, State.respond_fld, State.setFld_fld]
    rw [FieldFile.set_set_same]
  | clrbuf | clrfld | enchdrReq | enchdrRsp => simp [State.afterSuccess]
  | dechdrReq => exact s.decodeHeader_decodeHeader .req
  | dechdrRsp => exact s.decodeHeader_decodeHeader .rsp
  | rdfield | getbyte | getfld | getstat => cases hwrites

end Sys2Proof.Machine
end

section
/-! The frame table of 42_access.md and the reading and writing commands of 20_memory.md section 4. -/

namespace Sys2Proof.Machine

/-- Settles O48: a fault leaves everything, and a command without a fault writes what its rule names. -/
theorem onlyTheNamedStateChanges : Obligations.OnlyTheNamedStateChanges := by
  unfold Obligations.OnlyTheNamedStateChanges
  intro i s t hwf h
  refine ⟨fun hi a => by rw [exec_buf_of_not_mayWriteBuf h hi], exec_fld_of_not_mayWriteFld h, ?_⟩
  obtain ⟨k, hbuf, hfld, -⟩ | ⟨hnone, rfl⟩ := exec_fault_or_success h
  · rw [hbuf, hfld]
    exact ⟨fun _ _ _ _ _ _ => rfl, fun _ _ _ _ _ => rfl, fun _ _ _ _ _ => rfl⟩
  · obtain ⟨-, hrange, -⟩ := (firstFault_eq_none_iff _ _).1 hnone
    refine ⟨?_, ?_, ?_⟩
    · rintro off len val rfl k hk
      exact (Memory.bit_writeField _ k _ _ s.buf hwf (not_lt.1 (of_decide_eq_false hrange))).trans
        (if_neg (by omega))
    · rintro idx byte rfl a ha
      exact (s.buf.read_write _ a _ hwf).trans (if_neg ha)
    · rintro idx val rfl j hj
      exact (s.fld.get?_set _ j val (not_le.1 (of_decide_eq_false hrange))).trans (if_neg hj)

/-- Settles O35: a reading command is in neither column of the frame table, and the eight bits of a byte are the
byte. -/
theorem byteViewAgreesWithBitView : Obligations.ByteViewAgreesWithBitView := by
  unfold Obligations.ByteViewAgreesWithBitView
  refine ⟨fun s t i hi h => ?_, fun s idx hidx => ?_⟩
  · obtain ⟨hnotBuf, hnotFld⟩ : mayWriteBuf i = false ∧ mayWriteFld i = false := by
      obtain rfl | ⟨off, len, rfl⟩ | ⟨idx, rfl⟩ | ⟨idx, rfl⟩ := hi <;> exact ⟨rfl, rfl⟩
    have hbuf := exec_buf_of_not_mayWriteBuf h hnotBuf
    have hfld := exec_fld_of_not_mayWriteFld h hnotFld
    exact ⟨hbuf, hfld, exec_response_again h hbuf hfld⟩
  · have hoff : (8 * idx).toNat = 8 * idx.toNat := by bv_omega
    have hin : (8 * idx).toNat + (8 : BitVec 8).toNat ≤ 96 := by
      rw [hoff]
      change 8 * idx.toNat + 8 ≤ 96
      omega
    rw [exec_rdfield_of_legal s (by decide) hin, exec_getbyte_of_legal s hidx, hoff]
    change _ = Host.Outcome.next (s.respond (BitVec.setWidth 32 _))
    rw [show (8 : BitVec 8).toNat = 8 from rfl, Memory.readField_byte, BitVec.ofNat_toNat]

/-- Settles O36: a command answered with code 0 had no cause to fault, has none again, and writes the same again. -/
theorem repeatedWritesAreIdempotent : Obligations.RepeatedWritesAreIdempotent := by
  unfold Obligations.RepeatedWritesAreIdempotent
  intro i s t d hwf hwrites h hresponse
  obtain ⟨hnone, rfl⟩ := exec_success_of_response h hresponse
  obtain ⟨-, hrange, -⟩ := (firstFault_eq_none_iff _ _).1 hnone
  rw [exec_of_no_cause ((firstFault_afterSuccess s i).trans hnone), State.afterSuccess_afterSuccess hwf hwrites hrange]

/-- Settles O49: SETFLD stores all 32 bits, and a register of 65536 or more does not fit the 16 bits of the field. -/
theorem wideSequenceNumberIsRefused : Obligations.WideSequenceNumberIsRefused := by
  unfold Obligations.WideSequenceNumberIsRefused
  intro s v hv
  have hset := exec_setfld_of_legal s (idx := 2) (val := v) (by decide)
  have hwide : ¬ fieldsFit .rsp ((s.setFld (s.fld.set 2 v)).respond 0).fld = true := fun hfit => by
    obtain ⟨-, -, hsequence⟩ := (fieldsFit_rsp_iff _).1 hfit
    exact absurd hsequence (not_lt.2 hv)
  obtain ⟨u, henc, hfault⟩ := enchdrOf_endsFault hwide
  exact ⟨_, u, hset, endsOk_respond s _ 0 rfl, henc, hfault⟩

end Sys2Proof.Machine
end

section
/-! SUPPORT. The headers field by field: what ENCHDR writes of a decoded header, ENCHDR's writes in any order, and a
sequence of WRFIELDs (41_header.md section 4). -/

namespace Sys2Proof.Machine

/-- DECHDR's registers are the fields of the layout in order (R113, R114). -/
theorem decodeHeaderFld_toList (l : Layout) (m : Memory) (f : FieldFile) :
    (decodeHeaderFld l m f).toList = (layoutFields l).map fun d => BitVec.ofNat 32 (m.readField d.off d.len) := by
  cases l <;> rfl

/-- The layout's fields beside the registers DECHDR fills: each field with its own value. -/
theorem zip_decodeHeaderFld (l : Layout) (m : Memory) (f : FieldFile) :
    (layoutFields l).zip (decodeHeaderFld l m f).toList =
      (layoutFields l).map fun d => (d, BitVec.ofNat 32 (m.readField d.off d.len)) := by
  cases l <;> rfl

/-- A register DECHDR fills holds its field's value. -/
theorem toNat_decodedField {l : Layout} (m : Memory) {d : FieldDesc} (hd : d ∈ layoutFields l) :
    (BitVec.ofNat 32 (m.readField d.off d.len)).toNat = m.readField d.off d.len :=
  toNat_ofNat_readField m d.off (layoutFields_inside l d hd).2

/-- What DECHDR reads fits the layout it was read by (R113, R114). -/
theorem fieldsFit_decodeHeaderFld (l : Layout) (m : Memory) (f : FieldFile) :
    fieldsFit l (decodeHeaderFld l m f) = true := by
  rw [fieldsFit, zip_decodeHeaderFld, List.all_map, List.all_eq_true]
  intro d hd
  rw [Function.comp_apply, valueFits_iff, toNat_decodedField m hd]
  exact m.readField_lt d.off d.len

/-- ENCHDR after DECHDR writes every field as it was (R111 to R114). -/
theorem readField_encode_decode (l : Layout) (m : Memory) (f : FieldFile) {d : FieldDesc} (hd : d ∈ layoutFields l) :
    (encodeHeaderBuf l (decodeHeaderFld l m f)).readField d.off d.len = m.readField d.off d.len := by
  have hfields := readField_encodeHeaderBuf (fieldsFit_decodeHeaderFld l m f)
  rw [zip_decodeHeaderFld] at hfields
  exact (hfields _ (List.mem_map_of_mem hd)).trans (toNat_decodedField m hd)

/-- Fields with the same value have the same bits. -/
theorem Memory.bit_eq_of_readField_eq {m n : Memory} {off len k : Nat} (h : m.readField off len = n.readField off len)
    (hlo : off ≤ k) (hhi : k < off + len) : m.bit k = n.bit k := by
  have hbit := congrArg (Nat.testBit · (off + len - 1 - k)) h
  simpa [Memory.testBit_readField, show off + len - 1 - k < len by omega,
    show off + len - 1 - (off + len - 1 - k) = k by omega] using hbit

/-- A bit that is not reserved lies in a field of the layout (R64). -/
theorem exists_field_of_not_isReserved {l : Layout} {k : Nat} (hk : k < 96) (h : isReserved l k = false) :
    ∃ d ∈ layoutFields l, d.off ≤ k ∧ k < d.off + d.len := by
  have hcover := fields_covering_bit l k hk
  rw [h, if_neg Bool.false_ne_true] at hcover
  obtain ⟨d, hd⟩ := List.length_pos_iff_exists_mem.1 (hcover.symm ▸ Nat.one_pos)
  obtain ⟨hmem, hin⟩ := List.mem_filter.1 hd
  exact ⟨d, hmem, of_decide_eq_true hin⟩

/-- ENCHDR after DECHDR clears the reserved bits and leaves every other bit. -/
theorem bit_encode_decode (l : Layout) (m : Memory) (f : FieldFile) {k : Nat} (hk : k < 96) :
    (encodeHeaderBuf l (decodeHeaderFld l m f)).bit k = (m.bit k && !isReserved l k) := by
  cases hreserved : isReserved l k with
  | true => rw [bit_encodeHeaderBuf_reserved _ hreserved, Bool.not_true, Bool.and_false]
  | false =>
    obtain ⟨d, hd, hlo, hhi⟩ := exists_field_of_not_isReserved hk hreserved
    rw [Memory.bit_eq_of_readField_eq (readField_encode_decode l m f hd) hlo hhi, Bool.not_false, Bool.and_true]

/-- DECHDR then ENCHDR succeed and clear exactly the reserved bits, in either layout (41_header.md section 4). -/
theorem decode_then_encode (l : Layout) {s : State} (hwf : s.buf.wf = true) :
    ∃ t u, exec (dechdrOf l) s = .next t ∧ exec (enchdrOf l) t = .next u ∧ EndsOk t u 0 ∧
      (∀ k, k < 96 → u.buf.bit k = (s.buf.bit k && !isReserved l k)) ∧
      ((∀ k, isReserved l k = true → s.buf.bit k = false) → u.buf = s.buf) := by
  obtain ⟨t, hdec, -, -, htfld⟩ := dechdrOf_endsOk l s
  obtain ⟨u, henc, hok, -, hubuf⟩ := enchdrOf_endsOk (l := l) (s := t) (htfld ▸ fieldsFit_decodeHeaderFld l _ _)
  rw [htfld] at hubuf
  have hbits : ∀ k, k < 96 → u.buf.bit k = (s.buf.bit k && !isReserved l k) := fun k hk => by
    rw [hubuf, bit_encode_decode l _ _ hk]
  refine ⟨t, u, hdec, henc, hok, hbits, fun hclear => ?_⟩
  refine Memory.ext_of_bits _ _ (hubuf ▸ wf_encodeHeaderBuf l _) hwf fun k hk => ?_
  rw [hbits k hk]
  cases hreserved : isReserved l k with
  | true => rw [hclear k hreserved, Bool.false_and]
  | false => rw [Bool.not_false, Bool.and_true]

/-- ENCHDR's writes may be done in any order, since the fields of a layout do not overlap. -/
theorem writeHeaderFields_perm {ps qs : List (FieldDesc × Word)} (h : ps.Perm qs) : ∀ {m : Memory}, m.wf = true →
    (∀ p ∈ ps, p.1.off + p.1.len ≤ Config.bufBits) → (ps.map Prod.fst).Pairwise FieldsApart →
    writeHeaderFields m ps = writeHeaderFields m qs := by
  induction h with
  | nil => intros; rfl
  | cons p _ ih =>
    intro m hwf hin hapart
    obtain ⟨hp, hin⟩ := List.forall_mem_cons.1 hin
    exact ih (Memory.wf_writeField _ _ _ m hwf hp) hin (List.pairwise_cons.1 hapart).2
  | swap p q ps =>
    intro m hwf hin hapart
    obtain ⟨hq, hin⟩ := List.forall_mem_cons.1 hin
    obtain ⟨hp, -⟩ := List.forall_mem_cons.1 hin
    have hqp : FieldsApart q.1 p.1 := (List.pairwise_cons.1 hapart).1 p.1 (by simp)
    simp only [writeHeaderFields]
    rw [Memory.writeField_comm hwf hq hp hqp]
  | trans hpq _ ih1 ih2 =>
    intro m hwf hin hapart
    rw [ih1 hwf hin hapart]
    have hsymm : ∀ {d e : FieldDesc}, FieldsApart d e → FieldsApart e d := Or.symm
    exact ih2 hwf (fun p hp => hin p (hpq.mem_iff.2 hp)) (((hpq.map Prod.fst).pairwise_iff hsymm).1 hapart)

/-- The operands that name a layout's field are its offset and its length (R74, R110). -/
theorem toNat_fieldOperands {l : Layout} {d : FieldDesc} (hd : d ∈ layoutFields l) :
    (BitVec.ofNat 16 d.off).toNat = d.off ∧ (BitVec.ofNat 8 d.len).toNat = d.len := by
  obtain ⟨hin, hlen⟩ := layoutFields_inside l d hd
  simp only [Config.bufBits, Config.nbytes, Config.maxLen] at hin hlen
  rw [BitVec.toNat_ofNat, BitVec.toNat_ofNat]
  omega

/-- A WRFIELD of a layout's field writes that field, when the value fits it (R90, R110). -/
theorem exec_wrfield_field {l : Layout} {d : FieldDesc} (hd : d ∈ layoutFields l) {v : Word}
    (hv : v.toNat < 2 ^ d.len) (s : State) : exec (.wrfield (BitVec.ofNat 16 d.off) (BitVec.ofNat 8 d.len) v) s =
      .next ((s.setBuf (s.buf.writeField v.toNat d.off d.len)).respond 0) := by
  obtain ⟨hin, hlen⟩ := layoutFields_inside l d hd
  obtain ⟨hoff', hlen'⟩ := toNat_fieldOperands hd
  rw [exec_wrfield_of_legal s (hlen'.symm ▸ hlen) (by rw [hoff', hlen']; exact hin) (hlen'.symm ▸ hv), hoff', hlen']

/-- An RDFIELD of a layout's field reads it (R91, R110). -/
theorem exec_rdfield_field {l : Layout} {d : FieldDesc} (hd : d ∈ layoutFields l) (s : State) :
    exec (.rdfield (BitVec.ofNat 16 d.off) (BitVec.ofNat 8 d.len)) s =
      .next (s.respond (BitVec.ofNat 32 (s.buf.readField d.off d.len))) := by
  obtain ⟨hin, hlen⟩ := layoutFields_inside l d hd
  obtain ⟨hoff', hlen'⟩ := toNat_fieldOperands hd
  rw [exec_rdfield_of_legal s (hlen'.symm ▸ hlen) (by rw [hoff', hlen']; exact hin), hoff', hlen']

/-- A sequence of WRFIELDs of a layout's fields makes the writes of ENCHDR (R90, R159). -/
theorem issueAll_wrfields {l : Layout} : ∀ (ps : List (FieldDesc × Word)) (s : State),
    (∀ p ∈ ps, p.1 ∈ layoutFields l ∧ p.2.toNat < 2 ^ p.1.len) →
    (issueAll (ps.map fun p => .wrfield (BitVec.ofNat 16 p.1.off) (BitVec.ofNat 8 p.1.len) p.2) s).1.buf =
      writeHeaderFields s.buf ps
  | [], _, _ => rfl
  | p :: ps, s, h => by
    obtain ⟨⟨hd, hv⟩, hps⟩ := List.forall_mem_cons.1 h
    rw [List.map_cons, issueAll_cons_respond (exec_wrfield_field hd hv s)]
    exact issueAll_wrfields ps _ hps

/-- An ENCHDR that ends well found registers that fit the layout (R111, R112). -/
theorem fieldsFit_of_enchdr_endsOk {l : Layout} {s t : State} {d : Word} (h : exec (enchdrOf l) s = .next t)
    (hok : EndsOk s t d) : fieldsFit l s.fld = true := by
  rw [exec_enchdrOf, Host.Outcome.next.injEq] at h
  obtain ⟨hfit, -⟩ | ⟨-, rfl⟩ := encodeHeader_cases l s t h
  · exact hfit
  · exact absurd hok (not_endsOk_raiseFault s _ d)

end Sys2Proof.Machine
end

section
/-! The consequences of 41_header.md section 4. -/

namespace Sys2Proof.Machine

/-- Settles O39: what DECHDR reads fits, every field is written back as it was read, and the rest is reserved. -/
theorem decodeThenEncodeClearsReservedBits : Obligations.DecodeThenEncodeClearsReservedBits := by
  unfold Obligations.DecodeThenEncodeClearsReservedBits
  exact fun s hwf => ⟨decode_then_encode .req hwf, decode_then_encode .rsp hwf⟩

/-- Settles O40: CLRBUF and the WRFIELDs make ENCHDR's writes, whose order does not matter; and DECHDR's registers are
the fields of the layout, which RDFIELD reads. -/
theorem headerCommandsAreFieldCommands : Obligations.HeaderCommandsAreFieldCommands := by
  unfold Obligations.HeaderCommandsAreFieldCommands
  refine ⟨fun l s t ps h hok hperm => ?_, fun l s t i d h hi => ?_⟩
  · have hperm : ps.Perm ((layoutFields l).zip s.fld.toList) := hperm
    have hfit := fieldsFit_of_enchdr_endsOk h hok
    have hfields : ∀ p ∈ ps, p.1 ∈ layoutFields l ∧ p.2.toNat < 2 ^ p.1.len := fun p hp =>
      have hzip := hperm.mem_iff.1 hp
      ⟨(List.of_mem_zip hzip).1, (valueFits_iff _ _).1 (List.all_eq_true.1 hfit p hzip)⟩
    have hnames : ((layoutFields l).zip s.fld.toList).map Prod.fst = layoutFields l :=
      List.map_fst_zip (by cases l <;> exact le_rfl)
    rw [buf_of_enchdr_endsOk h hok, issueAll_cons_respond (u := s.setBuf Memory.cleared) (d := 0) rfl,
      issueAll_wrfields ps _ hfields]
    refine (writeHeaderFields_perm hperm.symm Memory.wf_cleared
      (fun p hp => (layoutFields_inside l p.1 (List.of_mem_zip hp).1).1) ?_).symm
    rw [hnames]
    exact layoutFields_apart l
  · refine ⟨_, _, exec_rdfield_field (List.mem_of_getElem? hi) s, rfl, ?_⟩
    rw [fld_of_dechdr h, FieldFile.get?_eq_toList, decodeHeaderFld_toList, List.getElem?_map, hi]
    rfl

end Sys2Proof.Machine
end

section
/-! SUPPORT. Names, extensions, and the request header as bytes and as numbers (43_packet_layer.md R151 to R154). -/

namespace Sys2Proof.Machine

/-- A code unit is its high byte and its low byte (R151). -/
theorem codeUnit_bytes (u : CodeUnit) : u.extractLsb' 8 8 ++ u.extractLsb' 0 8 = u :=
  BitVec.extractLsb'_append_extractLsb'_eq_extractLsb' (by decide) |>.trans (by simp)

/-- The halves of two joined bytes are the two bytes (R151). -/
theorem bytes_of_append (hi lo : Byte) :
    (hi ++ lo : CodeUnit).extractLsb' 8 8 = hi ∧ (hi ++ lo : CodeUnit).extractLsb' 0 8 = lo := by
  constructor
  · exact BitVec.extractLsb'_append_eq_left
  · exact BitVec.extractLsb'_append_eq_right

theorem length_nameBytes (name : List CodeUnit) : (nameBytes name).length = 2 * name.length := by
  induction name with
  | nil => rfl
  | cons u us ih => simp only [nameBytes, List.length_cons, ih]; omega

/-- A name is the name of its bytes (R151). -/
theorem nameOf_nameBytes (name : List CodeUnit) : nameOf (nameBytes name) = some name := by
  induction name with
  | nil => rfl
  | cons u us ih => rw [nameBytes, nameOf, ih, Option.map_some, codeUnit_bytes]

/-- A byte string is a name's exactly when its length is even; then it is the name's bytes (R151). -/
theorem nameOf_cases : ∀ bytes : List Byte,
    (bytes.length % 2 = 1 ∧ nameOf bytes = none) ∨
      (bytes.length % 2 = 0 ∧ ∃ name, nameOf bytes = some name ∧ nameBytes name = bytes)
  | [] => .inr ⟨rfl, [], rfl, rfl⟩
  | [_] => .inl ⟨rfl, rfl⟩
  | hi :: lo :: bs => by
    simp only [List.length_cons, nameOf]
    obtain ⟨hodd, hnone⟩ | ⟨heven, name, hsome, hbytes⟩ := nameOf_cases bs
    · exact .inl ⟨by omega, by rw [hnone, Option.map_none]⟩
    · obtain ⟨hhi, hlo⟩ := bytes_of_append hi lo
      refine .inr ⟨by omega, (hi ++ lo) :: name, by rw [hsome, Option.map_some], ?_⟩
      rw [nameBytes, hbytes, hhi, hlo]

/-- Byte `2j` of a name's bytes is the high byte of unit `j` and byte `2j + 1` its low byte (R151). -/
theorem getElem?_nameBytes : ∀ (name : List CodeUnit) (j : Nat),
    (nameBytes name)[2 * j]? = name[j]?.map (BitVec.extractLsb' 8 8) ∧
      (nameBytes name)[2 * j + 1]? = name[j]?.map (BitVec.extractLsb' 0 8)
  | [], _ => ⟨rfl, rfl⟩
  | _ :: _, 0 => ⟨rfl, rfl⟩
  | _ :: us, j + 1 => getElem?_nameBytes us j

/-- `codeOf` sees an extension in upper case only (R152). -/
theorem codeOf_congr {ext ext' : List Char} (h : ext.map Char.toUpper = ext'.map Char.toUpper) :
    codeOf ext = codeOf ext' := by
  rw [codeOf, codeOf, typeOfExtension, typeOfExtension, h]

/-- The names of the table are in upper case (R68). -/
theorem map_toUpper_name (t : ImageType) : t.name.map Char.toUpper = t.name := by
  cases t <;> rfl

/-- A type's name looks up to the type's code (R68, R152). -/
theorem codeOf_name (t : ImageType) : codeOf t.name = some t.code := by
  cases t <;> rfl

/-- Whatever letters of a text are written in lower case, its upper case is the same. -/
theorem map_toUpper_mapIdx (upper : Nat → Bool) (cs : List Char) :
    (cs.mapIdx fun i c => if upper i then c else c.toLower).map Char.toUpper = cs.map Char.toUpper := by
  refine List.ext_getElem (by simp) fun i _ _ => ?_
  simp only [List.getElem_map, List.getElem_mapIdx]
  split
  · rfl
  · exact Char.toUpper_toLower_eq_toUpper _

/-- The code of the type found by a code is that code (R68). -/
theorem code_of_typeOfCode {code : BitVec 4} {t : ImageType} (h : typeOfCode code = some t) : t.code = code := by
  unfold typeOfCode at h
  simpa using List.find?_some h

/-- The six codes of the table have a type, and no other code has one (R68). -/
theorem exists_typeOfCode_iff (code : BitVec 4) :
    (∃ t, typeOfCode code = some t) ↔ code ∈ [1, 2, 3, 4, 5, 15] := by
  rw [← Option.isSome_iff_exists]
  revert code
  decide

/-- The extension of a code is its type's name in the letter case of the free value; other codes are refused (R152). -/
theorem extensionOf_eq_ok_iff (code : BitVec 4) (name : List Char) :
    extensionOf code = .ok name ↔ ∃ t, typeOfCode code = some t ∧
      (t.name.mapIdx fun i c => if Config.extensionUpper code i then c else c.toLower) = name := by
  unfold extensionOf
  cases typeOfCode code <;> simp

/-- The twelve bytes of a request header, from its registers (R111). -/
theorem RequestRegisters.bytes_eq {m : Memory} {f : FieldFile} (h : RequestRegisters m f)
    (hreserved : (m.read 0).toNat % 16 = 0 ∧ m.read 1 = 0 ∧ m.read 2 = 0) :
    (List.range Config.hdrBytes).map m.read =
      [BitVec.ofNat 8 (f.fld0.toNat * 16), 0, 0, BitVec.ofNat 8 f.fld1.toNat,
       BitVec.ofNat 8 (f.fld2.toNat / 2 ^ 24), BitVec.ofNat 8 (f.fld2.toNat / 2 ^ 16),
       BitVec.ofNat 8 (f.fld2.toNat / 2 ^ 8), BitVec.ofNat 8 f.fld2.toNat,
       BitVec.ofNat 8 (f.fld3.toNat * 16 + f.fld4.toNat / 2 ^ 24), BitVec.ofNat 8 (f.fld4.toNat / 2 ^ 16),
       BitVec.ofNat 8 (f.fld4.toNat / 2 ^ 8), BitVec.ofNat 8 f.fld4.toNat] := by
  obtain ⟨hversion, htype, htime, hcode, hlength⟩ := h
  obtain ⟨hlow, hbyte1, hbyte2⟩ := hreserved
  change [m.read 0, m.read 1, m.read 2, m.read 3, m.read 4, m.read 5, m.read 6, m.read 7, m.read 8, m.read 9,
    m.read 10, m.read 11] = _
  simp only [List.cons.injEq, and_true]
  refine ⟨?_, hbyte1, hbyte2, ?_, ?_, ?_, ?_, ?_, ?_, ?_, ?_, ?_⟩ <;>
  · apply BitVec.eq_of_toNat_eq
    rw [BitVec.toNat_ofNat]
    omega

/-- The five numbers of a request header's bytes (R113, R159). -/
theorem decodeHeaderMacro_req {s : State} (hwf : s.buf.wf = true) (b0 b1 b2 b3 b4 b5 b6 b7 b8 b9 b10 b11 : Byte) :
    (decodeHeaderMacro .req [b0, b1, b2, b3, b4, b5, b6, b7, b8, b9, b10, b11] s).2 = .ok
      [b0.toNat / 16, b3.toNat, b4.toNat * 2 ^ 24 + b5.toNat * 2 ^ 16 + b6.toNat * 2 ^ 8 + b7.toNat,
       b8.toNat / 16, b8.toNat % 16 * 2 ^ 24 + b9.toNat * 2 ^ 16 + b10.toNat * 2 ^ 8 + b11.toNat] := by
  obtain ⟨m, f, hread, hexpand⟩ := decodeHeaderMacro_eq .req (s := s) hwf
    (h := [b0, b1, b2, b3, b4, b5, b6, b7, b8, b9, b10, b11]) rfl
  obtain ⟨hversion, htype, htime, hcode, hlength⟩ := requestRegisters_decodeHeaderFld m f
  have hbyte : ∀ j < 12, m.read j = [b0, b1, b2, b3, b4, b5, b6, b7, b8, b9, b10, b11].getD j 0 := fun j hj => by
    rw [hread j hj, List.getD_eq_getElem _ _ hj]
  rw [hexpand]
  simp [FieldFile.toList, hversion, htype, htime, hcode, hlength, hbyte]

/-- BUILDREQ of a known extension is the header expansion, then the name's bytes (R153). -/
theorem buildReq_of_codeOf {ext : List Char} {code : BitVec 4} (h : codeOf ext = some code) (version timestamp : Nat)
    (name : List CodeUnit) (s : State) : (buildReq version name ext timestamp s).2 =
      (encodeHeaderMacro .req [version, 0, timestamp, code.toNat, 2 * name.length] s).2.map (· ++ nameBytes name) := by
  simp only [buildReq, h, length_nameBytes, requestTypeQuery]

/-- BUILDREQ of an unknown extension issues no command (R152, R153). -/
theorem buildReq_of_codeOf_none {ext : List Char} (h : codeOf ext = none) (version timestamp : Nat)
    (name : List CodeUnit) (s : State) : buildReq version name ext timestamp s = (s, .unknownExtension) := by
  simp only [buildReq, h]

/-- With a header present, PARSEREQ is the header expansion on its twelve bytes, then the length test (R154). -/
theorem parseReq_of_header {bytes : List Byte} (h : Config.hdrBytes ≤ bytes.length) (s : State) :
    (parseReq bytes s).2 =
      (decodeHeaderMacro .req (bytes.take Config.hdrBytes) s).2.andThen (finishRequest bytes) := by
  rw [parseReq, if_neg (not_lt.2 h)]

section
variable {bytes : List Byte} {version requestType timestamp imageTypeCode imageNameLength : Nat}

/-- A declared length beyond the bytes present is an error (R154). -/
theorem finishRequest_of_truncated (h : bytes.length < Config.hdrBytes + imageNameLength) :
    finishRequest bytes [version, requestType, timestamp, imageTypeCode, imageNameLength] = .truncatedPacket :=
  if_pos h

/-- An odd number of name bytes, all present, is refused (93 U11). -/
theorem finishRequest_of_no_name (h : Config.hdrBytes + imageNameLength ≤ bytes.length)
    (hname : nameOf ((bytes.drop Config.hdrBytes).take imageNameLength) = none) :
    finishRequest bytes [version, requestType, timestamp, imageTypeCode, imageNameLength] =
      .refused .oddNameLength := by
  rw [finishRequest, if_neg (not_lt.2 h), hname]

/-- A complete packet gives its fields and the name of exactly the declared bytes (R154). -/
theorem finishRequest_of_name (h : Config.hdrBytes + imageNameLength ≤ bytes.length) {name : List CodeUnit}
    (hname : nameOf ((bytes.drop Config.hdrBytes).take imageNameLength) = some name) :
    finishRequest bytes [version, requestType, timestamp, imageTypeCode, imageNameLength] =
      .ok ⟨version, requestType, timestamp, imageTypeCode, name⟩ := by
  rw [finishRequest, if_neg (not_lt.2 h), hname]

end

end Sys2Proof.Machine
end

section
/-! SUPPORT. The two header expansions as functions of their arguments alone, and one after the other
(43_packet_layer.md sections 4 and 5). -/

namespace Sys2Proof.Machine

/-- The header expansion ends one way whatever the block held: with ENCHDR's ValueError, or with the twelve bytes of the
header of registers that hold the five values (R159). -/
theorem encodeHeaderMacro_cases (l : Layout) (f0 f1 f2 f3 f4 : Nat) :
    (∀ s, (encodeHeaderMacro l [f0, f1, f2, f3, f4] s).2 = .blockFault .valueError) ∨
      ∃ f : FieldFile, f.toList.map BitVec.toNat = [f0, f1, f2, f3, f4] ∧ fieldsFit l f = true ∧
        ∀ s, (encodeHeaderMacro l [f0, f1, f2, f3, f4] s).2 =
          .ok ((List.range Config.hdrBytes).map (encodeHeaderBuf l f).read) := by
  by_cases hwide : ∃ v ∈ [f0, f1, f2, f3, f4], 2 ^ 32 ≤ v
  · exact .inl (encodeHeaderMacro_of_not_expressible l (by simp) hwide)
  · simp only [not_exists, not_and, not_le, List.forall_mem_cons] at hwide
    obtain ⟨h0, h1, h2, h3, h4, -⟩ := hwide
    obtain ⟨f, rfl, rfl, rfl, rfl, rfl⟩ := exists_registers h0 h1 h2 h3 h4
    by_cases hfit : fieldsFit l f = true
    · exact .inr ⟨f, rfl, hfit, encodeHeaderMacro_of_fieldsFit hfit⟩
    · exact .inl (encodeHeaderMacro_of_not_fieldsFit hfit)

/-- DECHDR depends on the twelve bytes of BUF only (R113, R114). -/
theorem decodeHeaderFld_of_bytes (l : Layout) {m n : Memory} (f g : FieldFile)
    (h : ∀ j < Config.hdrBytes, m.read j = n.read j) : decodeHeaderFld l m f = decodeHeaderFld l n g :=
  decodeHeaderFld_congr f g fun k hk _ => by
    rw [Memory.bit, Memory.bit, h (k / 8) (by simp only [Config.hdrBytes]; omega)]

/-- Decoding the bytes of a built header gives back its five values, on any block whose BUF is canonical (R115,
R159). -/
theorem decodeHeaderMacro_encodeHeaderBuf {l : Layout} {f : FieldFile} (hfit : fieldsFit l f = true) {s : State}
    (hwf : s.buf.wf = true) :
    (decodeHeaderMacro l ((List.range Config.hdrBytes).map (encodeHeaderBuf l f).read) s).2 =
      .ok (f.toList.map BitVec.toNat) := by
  obtain ⟨m, g, hread, hexpand⟩ := decodeHeaderMacro_eq l (s := s) hwf
    (h := (List.range Config.hdrBytes).map (encodeHeaderBuf l f).read) (by simp)
  have hbytes : ∀ j < Config.hdrBytes, m.read j = (encodeHeaderBuf l f).read j := fun j hj => by
    rw [hread j (by simpa using hj)]
    simp
  rw [hexpand, decodeHeaderFld_of_bytes l g g hbytes, decodeHeaderFld_encodeHeaderBuf hfit]

/-- A header expansion that gives a value gives twelve bytes, which decode to the five values on any block whose BUF
is canonical (43_packet_layer.md section 4). -/
theorem headerMacro_round_trip {l : Layout} {f0 f1 f2 f3 f4 : Nat} {h : List Byte} {s s' : State}
    (hwf : s'.buf.wf = true) (hok : (encodeHeaderMacro l [f0, f1, f2, f3, f4] s).2 = .ok h) :
    h.length = Config.hdrBytes ∧ (decodeHeaderMacro l h s').2 = .ok [f0, f1, f2, f3, f4] := by
  obtain hfault | ⟨f, hvalues, hfit, hbytes⟩ := encodeHeaderMacro_cases l f0 f1 f2 f3 f4
  · rw [hfault s] at hok
    cases hok
  · rw [hbytes s, PacketResult.ok.injEq] at hok
    subst hok
    exact ⟨by simp, by rw [decodeHeaderMacro_encodeHeaderBuf hfit hwf, hvalues]⟩

end Sys2Proof.Machine
end

section
/-! The statements of 43_packet_layer.md about names, extensions, requests and round trips. -/

namespace Sys2Proof.Machine

/-- Settles O56: two bytes make one unit, in both directions, and an odd byte is left over exactly in an odd number. -/
theorem nameEncodingRoundTrip : Obligations.NameEncodingRoundTrip := by
  unfold Obligations.NameEncodingRoundTrip
  refine ⟨fun name => ⟨nameOf_nameBytes name, length_nameBytes name⟩, fun name j u hu => ?_, fun bytes => ?_⟩
  · obtain ⟨hhi, hlo⟩ := getElem?_nameBytes name j
    rw [hu, Option.map_some] at hhi hlo
    refine ⟨_, _, hhi, hlo, ?_, ?_⟩
    · rw [toNat_extractLsb'_eq_div_mod]
      omega
    · rw [toNat_extractLsb'_eq_div_mod]
      omega
  · obtain ⟨hodd, hnone⟩ | ⟨heven, name, hsome, -⟩ := nameOf_cases bytes
    · exact iff_of_true hnone hodd
    · exact iff_of_false (by simp [hsome]) (by omega)

/-- Settles O57: lookup compares in upper case, in which the extension of a code is its type's name. -/
theorem extensionLookupIgnoresLetterCase : Obligations.ExtensionLookupIgnoresLetterCase := by
  unfold Obligations.ExtensionLookupIgnoresLetterCase
  refine ⟨fun code name h => ?_, fun code => ?_, fun ext => ⟨codeOf_congr ?_, codeOf_congr ?_⟩⟩
  · obtain ⟨t, ht, rfl⟩ := (extensionOf_eq_ok_iff code name).1 h
    rw [codeOf_congr (map_toUpper_mapIdx _ t.name), codeOf_name, code_of_typeOfCode ht]
  · simp only [extensionOf_eq_ok_iff, ← exists_typeOfCode_iff]
    exact ⟨fun ⟨t, ht⟩ => ⟨_, t, ht, rfl⟩, fun ⟨_, t, ht, _⟩ => ⟨t, ht⟩⟩
  · simp
  · simp

/-- Settles O51: values the host can express are registers, which fit the layout and give ENCHDR's twelve bytes or do
not fit it; a value the host cannot express is a ValueError of its own. -/
theorem buildreqGivesHeaderAndName : Obligations.BuildreqGivesHeaderAndName := by
  unfold Obligations.BuildreqGivesHeaderAndName
  refine fun version timestamp name ext s => ⟨fun hext => buildReq_of_codeOf_none hext version timestamp name s,
    fun code hext => ?_⟩
  have hcode : code.toNat < 2 ^ 4 := code.isLt
  rw [buildReq_of_codeOf hext]
  refine ⟨fun hversion htime hlength => ?_, fun hout => ?_⟩
  · obtain ⟨f, rfl, htype, rfl, hcodeField, hlengthField⟩ := exists_registers (hversion.trans (by decide))
      (Nat.two_pow_pos 32) htime (hcode.trans (by decide)) (hlength.trans (by decide))
    have hvalues : f.toList.map BitVec.toNat =
        [f.fld0.toNat, 0, f.fld2.toNat, code.toNat, 2 * name.length] := by
      simp [FieldFile.toList, htype, hcodeField, hlengthField]
    have hfit : fieldsFit .req f = true := (fieldsFit_req_iff f).2 (by omega)
    have hbytes := (requestRegisters_encodeHeaderBuf hfit).bytes_eq (reserved_bytes_encodeHeaderBuf_req f)
    rw [← hvalues, encodeHeaderMacro_of_fieldsFit hfit, hbytes, htype, hcodeField, hlengthField, PacketResult.map_ok]
    rfl
  · obtain hfault | ⟨f, hvalues, hfit, -⟩ :=
      encodeHeaderMacro_cases .req version 0 timestamp code.toNat (2 * name.length)
    · rw [hfault s, PacketResult.map_blockFault]
    · simp only [FieldFile.toList, List.map_cons, List.cons.injEq] at hvalues
      rw [fieldsFit_req_iff] at hfit
      have htime := f.fld2.isLt
      omega

/-- Settles O53: the header's twelve bytes are decoded to its five numbers, the length test comes before the name, and
the name exists exactly for an even number of bytes. -/
theorem parsereqDecodesOrIsTruncated : Obligations.ParsereqDecodesOrIsTruncated := by
  unfold Obligations.ParsereqDecodesOrIsTruncated
  refine fun bytes s hwf => ⟨fun hshort => if_pos hshort, ?_⟩
  intro b0 b1 b2 b3 b4 b5 b6 b7 b8 b9 b10 b11 rest hbytes n hn
  have hlength : bytes.length = Config.hdrBytes + rest.length := by
    rw [hbytes, Nat.add_comm]
    rfl
  have hheader : bytes.take Config.hdrBytes = [b0, b1, b2, b3, b4, b5, b6, b7, b8, b9, b10, b11] := by
    rw [hbytes]
    rfl
  have hrest : bytes.drop Config.hdrBytes = rest := by
    rw [hbytes]
    rfl
  have htaken (hcomplete : n ≤ rest.length) : (rest.take n).length = n := List.length_take_of_le hcomplete
  rw [parseReq_of_header (by omega), hheader, decodeHeaderMacro_req hwf, ← hn, PacketResult.andThen_ok]
  refine ⟨fun hshort => finishRequest_of_truncated (by omega), fun hcomplete hodd => ?_, fun hcomplete heven => ?_⟩
  · obtain ⟨-, hnone⟩ | ⟨heven, -⟩ := nameOf_cases (rest.take n)
    · exact finishRequest_of_no_name (by omega) (hrest.symm ▸ hnone)
    · rw [htaken hcomplete] at heven
      omega
  · obtain ⟨hodd, -⟩ | ⟨-, name, hsome, hname⟩ := nameOf_cases (rest.take n)
    · rw [htaken hcomplete] at hodd
      omega
    · exact ⟨name, hname, finishRequest_of_name (by omega) (hrest.symm ▸ hsome)⟩

/-- Settles O54: what is built is a header that decodes to its values and then the payload of the declared length. -/
theorem packetRoundTrip : Obligations.PacketRoundTrip := by
  unfold Obligations.PacketRoundTrip
  refine ⟨fun version timestamp name ext bytes s s' hwf hbuild => ?_,
    fun version responseType sequenceNumber timestamp payload bytes s s' hwf hbuild => ?_⟩
  · cases hext : codeOf ext with
    | none =>
      rw [buildReq_of_codeOf_none hext] at hbuild
      cases hbuild
    | some code =>
      rw [buildReq_of_codeOf hext] at hbuild
      obtain ⟨h, hheader, rfl⟩ := PacketResult.map_eq_ok hbuild
      obtain ⟨hlen, hdecode⟩ := headerMacro_round_trip hwf hheader
      refine ⟨code, rfl, ?_⟩
      rw [parseReq_of_header (by simp [hlen]), List.take_left' hlen, hdecode, PacketResult.andThen_ok]
      refine finishRequest_of_name (by simp [hlen, length_nameBytes]) ?_
      rw [List.drop_left' hlen, List.take_of_length_le (length_nameBytes name).le, nameOf_nameBytes]
  · obtain ⟨h, hheader, rfl⟩ := PacketResult.map_eq_ok hbuild
    obtain ⟨hlen, hdecode⟩ := headerMacro_round_trip hwf hheader
    rw [parseRsp_of_header (by simp [hlen]), List.take_left' hlen, hdecode, PacketResult.andThen_ok,
      finishResponse_of_complete (by simp [hlen]), List.drop_left' hlen, List.take_length]

/-- Settles O55: the header expansions' results are given by their arguments. -/
theorem expansionsDoNotDependOnOldState : Obligations.ExpansionsDoNotDependOnOldState := by
  unfold Obligations.ExpansionsDoNotDependOnOldState
  refine ⟨fun l f0 f1 f2 f3 f4 s s' => ?_, fun l h s s' hlen hwf hwf' => ?_⟩
  · obtain hfault | ⟨f, -, -, hbytes⟩ := encodeHeaderMacro_cases l f0 f1 f2 f3 f4
    · rw [hfault s, hfault s']
    · rw [hbytes s, hbytes s']
  · obtain ⟨m, f, hread, hexpand⟩ := decodeHeaderMacro_eq l hwf hlen
    obtain ⟨m', f', hread', hexpand'⟩ := decodeHeaderMacro_eq l hwf' hlen
    have hbytes : ∀ j < Config.hdrBytes, m.read j = m'.read j := fun j hj => by
      rw [hread j (hlen.symm ▸ hj), hread' j (hlen.symm ▸ hj)]
    rw [hexpand, hexpand', decodeHeaderFld_of_bytes l f f' hbytes]

end Sys2Proof.Machine
end
